-- ==== Sys2Proof/Word.lean ====
section
/-! DEFINITION. Word.lean: the widths of the block's values (00_scope.md R4, R6). All values are unsigned (R85). -/

namespace Sys2Proof

/-- A byte: a payload byte, an operand, one location of the frame buffer (R6, R40). -/
abbrev Byte := BitVec 8

/-- A value of ACCW = RSPW = 16 bits: the accumulator, the checksum, STATUS, a response value (R4). -/
abbrev Word := BitVec 16

/-- A command word of CMDW = 11 bits (R4, R60). -/
abbrev CmdWord := BitVec 11

end Sys2Proof
end

