-- ==== Sys2Proof/Config.lean ====
section
/-! DEFINITION. Config.lean: the parameters of the block as one configuration record (00_scope.md R4, R5). The values this
hardware takes stand in Machine/Hardware.lean. -/

namespace Sys2Proof

/-- INJECT: where a payload byte enters the accumulator (R4; R81 for `low`, R82 for `high`). -/
inductive Inject where
  | low
  | high
  deriving DecidableEq, Repr

/-- CKORDER: which byte of the checksum stands at the lower frame offset (R4, R42). -/
inductive ByteOrder where
  | highFirst
  | lowFirst
  deriving DecidableEq, Repr

/-- The parameters of R4 that a rule computes with. ACCW, RSPW and CMDW are the widths of the types `Word` and `CmdWord`;
MAXLEN is `Config.maxLen`. -/
structure Config where
  /-- `W`, the number of bytes of a frame. -/
  width : Nat
  /-- `INIT`, the accumulator before the first byte. -/
  init : Word
  /-- `POLY`, XORed in after a shift when the tested bit was 1. -/
  poly : Word
  /-- `XOROUT`, XORed into the accumulator to give the checksum. -/
  xorOut : Word
  /-- `INJECT`. -/
  inject : Inject
  /-- `ITER`, shift iterations per byte. -/
  iter : Nat
  /-- `HDR`, the byte at frame offset 0. -/
  hdr : Byte
  /-- `PAD`, the byte that fills the frame after the checksum. -/
  pad : Byte
  /-- `CKORDER`. -/
  ckOrder : ByteOrder
  deriving DecidableEq, Repr

/-- `MAXLEN = W - 3`, the largest payload length (R4, R5). -/
def Config.maxLen (c : Config) : Nat := c.width - 3

/-- The part of LATENCY(op) that is open: the spec gives no number (R4, R159). No rule and no definition of the model reads
it. Log entry 7. -/
opaque Config.latencyBeyondOne : BitVec 3 → Nat

/-- LATENCY(op): cycles from acceptance of a command to its response, open but at least 1 (R4, R159). Log entry 7. -/
def Config.latency (op : BitVec 3) : Nat := Config.latencyBeyondOne op + 1

end Sys2Proof
end

