-- ==== Sys2Proof/Syntax.lean ====
section
/-! DEFINITION. Syntax.lean: the seven operations (30_encoding.md R61), one constructor per row of spec/opcode_table.json. -/

namespace Sys2Proof

/-- The operations of R61. An operand is the byte `cmd[7:0]` (R62): every value is legal. -/
inductive Instr where
  /-- `NOP` (R120). -/
  | nop
  /-- `CLR` (R121). -/
  | clr
  /-- `PUSH b` (R88). -/
  | push (b : Byte)
  /-- `FIN` (R103). -/
  | fin
  /-- `RDF off` (R104). -/
  | rdf (off : Byte)
  /-- `RDCK` (R89). -/
  | rdck
  /-- `RDST` (R122). -/
  | rdst
  deriving DecidableEq, Repr

end Sys2Proof
end

