-- ==== Sys2Proof/WellFormed.lean ====
section
/-! DEFINITION. WellFormed.lean: the checks on syntax and configuration that the spec states (00_scope.md R5, 30_encoding.md
R62, R70). -/

namespace Sys2Proof

/-- Every operation is well formed with every operand: `PUSH` takes any byte and `RDF` any offset 0..255, the ones at or
above `W` being a fault of the operation and not of its form (R62). -/
def Instr.wf : Instr → Bool
  | .nop => true
  | .clr => true
  | .push _ => true
  | .fin => true
  | .rdf _ => true
  | .rdck => true
  | .rdst => true

/-- The constraints between parameters (R5), and the order of the checksum bytes, which cannot be switched (R42). -/
def Config.wf (c : Config) : Bool :=
  decide (3 ≤ c.width) && decide (c.width ≤ 256) && decide (c.iter = 8) && decide (c.ckOrder = .highFirst)

/-- An operand as it is written in a source line fits the 8-bit field (R70: "an unsigned number ... in `0..255`"). -/
def sourceOperandWf (n : Nat) : Bool := decide (n ≤ 255)

end Sys2Proof
end

