-- ==== Sys2Proof/Decode.lean ====
section
/-! DEFINITION. Decode.lean: the command word (30_encoding.md section 1), its decoder (R65), its encoder (R60, R61) and the
table of operations (R61). -/

namespace Sys2Proof

/-- The field `op = cmd[10:8]` (R60). -/
def opField (w : CmdWord) : BitVec 3 := w.extractLsb' 8 3

/-- The field `data = cmd[7:0]` (R60). -/
def dataField (w : CmdWord) : Byte := w.extractLsb' 0 8

/-- The word with the given fields, `(op << 8) | data` (R60). -/
def commandWord (op : BitVec 3) (data : Byte) : CmdWord := (op.setWidth 11 <<< 8) ||| data.setWidth 11

/-- Why a word is reserved (R64). -/
inductive Reserved where
  /-- `op = 111`. -/
  | opcode
  /-- `data` is not zero on an operation that takes no operand. -/
  | operand
  deriving DecidableEq, Repr

/-- The operation that a word without operand names, if its data field is zero (R64, R65). -/
def withoutOperand (data : Byte) (i : Instr) : Except Reserved Instr :=
  if data = 0 then .ok i else .error .operand

/-- Decode, total on every word (R65). -/
def decode (w : CmdWord) : Except Reserved Instr :=
  let d := dataField w
  match (opField w).toNat with
  | 0 => withoutOperand d .nop
  | 1 => withoutOperand d .clr
  | 2 => .ok (.push d)
  | 3 => withoutOperand d .fin
  | 4 => .ok (.rdf d)
  | 5 => withoutOperand d .rdck
  | 6 => withoutOperand d .rdst
  | _ => .error .opcode

/-- The word of an operation (R60, R61). -/
def encode : Instr → CmdWord
  | .nop => commandWord 0 0
  | .clr => commandWord 1 0
  | .push b => commandWord 2 b
  | .fin => commandWord 3 0
  | .rdf off => commandWord 4 off
  | .rdck => commandWord 5 0
  | .rdst => commandWord 6 0

/-- One row of the table of operations (R61): a word `w` selects the row when `w & mask = match`. -/
structure OpcodeRow where
  mask : CmdWord
  pattern : CmdWord
  deriving DecidableEq, Repr

/-- `w` selects the row (R61). -/
def rowSelects (r : OpcodeRow) (w : CmdWord) : Bool := w &&& r.mask == r.pattern

/-- The row of an operation, mask and match as R61 prints them. -/
def rowOf : Instr → OpcodeRow
  | .nop => ⟨0x7FF, 0x000⟩
  | .clr => ⟨0x7FF, 0x100⟩
  | .push _ => ⟨0x700, 0x200⟩
  | .fin => ⟨0x7FF, 0x300⟩
  | .rdf _ => ⟨0x700, 0x400⟩
  | .rdck => ⟨0x7FF, 0x500⟩
  | .rdst => ⟨0x7FF, 0x600⟩

/-- The seven rows of R61. -/
def opcodeRows : List OpcodeRow :=
  [rowOf .nop, rowOf .clr, rowOf (.push 0), rowOf .fin, rowOf (.rdf 0), rowOf .rdck, rowOf .rdst]

/-- The command word that the low `nbits` bits of `w` stand for, if they fit 11 bits (the block has one format and one
length, R69). -/
def tableCommandWord (nbits w : Nat) : Option CmdWord :=
  if w % 2 ^ nbits < 2048 then some (BitVec.ofNat 11 (w % 2 ^ nbits)) else none

/-- What the decoder reads from a word numbered as spec/opcode_table.json numbers it. -/
def decodeTableWord (nbits w : Nat) : Option Instr :=
  match tableCommandWord nbits w with
  | none => none
  | some cmd =>
    match decode cmd with
    | .ok i => some i
    | .error _ => none

end Sys2Proof
end

