-- ==== Sys2Proof/Machine/Hardware.lean ====
section
/-! DEFINITION. Machine/Hardware.lean: the value each parameter takes in this hardware (00_scope.md R4, last column but
one). -/

namespace Sys2Proof.Machine

/-- This hardware's parameters (R4). `INJECT = LOW` follows spec/90_conflicts.md C1; log entry 6. -/
def hw : Config where
  width := 64
  init := 0xFFFF
  poly := 0x1021
  xorOut := 0xFFFF
  inject := .low
  iter := 8
  hdr := 0x00
  pad := 0x00
  ckOrder := .highFirst

end Sys2Proof.Machine
end

