-- ==== Sys2Proof/Machine/Block.lean ====
section
/-! DEFINITION. Machine/Block.lean: the five elements of architectural state of the block (10_state.md R20) and their reset
values (R32, R150). -/

namespace Sys2Proof.Machine

/-- PHASE (R24). Value 3 is never taken, so it is not in the type (93_implementation_defined.md U14). -/
inductive Phase where
  | load
  | done
  | fault
  deriving DecidableEq, Repr

/-- ECODE (R25). Values 5 to 7 are never taken, so they are not in the type (93_implementation_defined.md U14). -/
inductive ECode where
  | none
  | overflow
  | illegal
  | sequence
  | range
  deriving DecidableEq, Repr

/-- The frame buffer's contents (R23, R40): the bytes that are not 0x00, by rising offset. An unlisted offset reads 0x00,
the reset content (R32). The form is `Memory.wf`. -/
abbrev Memory := List Host.Cell

/-- The architectural state, exactly these five elements (R20). -/
structure Block where
  /-- `ACC`, the checksum accumulator (R21). -/
  acc : Word
  /-- `LEN`, the number of payload bytes pushed (R22). -/
  len : BitVec 8
  /-- `FB`, the frame buffer (R23). -/
  fb : Memory
  /-- `PHASE` (R24). -/
  phase : Phase
  /-- `ECODE`, the cause of the first fault since `CLR` or reset (R25). -/
  ecode : ECode
  deriving DecidableEq, Repr

/-- The value of every element after reset (R32, R150), which is also what `CLR` leaves (R121, R151). -/
def Block.initial (c : Config) : Block where
  acc := c.init
  len := 0
  fb := []
  phase := .load
  ecode := .none

end Sys2Proof.Machine
end

