-- ==== Sys2Proof/Machine/Operands.lean ====
section
/-! DEFINITION. Machine/Operands.lean: the operand forms and effective offsets of the operations (20_memory.md R46), and the
slices and extensions they use (00_scope.md R6, R7). Offsets are natural numbers, so that sums never wrap (R85). -/

namespace Sys2Proof.Machine

/-- `zext_16` of a byte (R7). -/
def zext16 (b : Byte) : Word := b.setWidth 16

/-- The slice `v[15:8]` (R6). -/
def highByte (v : Word) : Byte := v.extractLsb' 8 8

/-- The slice `v[7:0]` (R6). -/
def lowByte (v : Word) : Byte := v.extractLsb' 0 8

/-- Offset of the header byte (R41). -/
def headerOffset : Nat := 0

/-- Where `PUSH` writes, `1 + LEN`; `FIN` writes the first checksum byte there (R46). -/
def payloadEnd (len : BitVec 8) : Nat := 1 + len.toNat

/-- Where `FIN` writes the second checksum byte, `2 + LEN` (R46). -/
def checksumEnd (len : BitVec 8) : Nat := 2 + len.toNat

/-- Where the padding that `FIN` writes begins, `3 + LEN` (R46). -/
def paddingStart (len : BitVec 8) : Nat := 3 + len.toNat

/-- Where `RDF off` reads: the operand as an unsigned number, no base and no scaling (R46, R62). -/
def absoluteOffset (off : Byte) : Nat := off.toNat

end Sys2Proof.Machine
end

