-- ==== Sys2Proof/Machine/Flags.lean ====
section
/-! DEFINITION. Machine/Flags.lean: the codes of PHASE and ECODE, the causes of a fault, STATUS and the output `fault`
(10_state.md R24 to R28; 60_exceptions.md R131). -/

namespace Sys2Proof.Machine

/-- The value of PHASE as two bits (R24). -/
def Phase.code : Phase → BitVec 2
  | .load => 0
  | .done => 1
  | .fault => 2

/-- The value of ECODE as three bits (R25). -/
def ECode.code : ECode → BitVec 3
  | .none => 0
  | .overflow => 1
  | .illegal => 2
  | .sequence => 3
  | .range => 4

/-- The causes a command can raise (R131, codes 1 to 4). -/
inductive Cause where
  | overflow
  | illegal
  | sequence
  | range
  deriving DecidableEq, Repr

/-- What ECODE holds once the cause is recorded (R130, R131). -/
def Cause.ecode : Cause → ECode
  | .overflow => .overflow
  | .illegal => .illegal
  | .sequence => .sequence
  | .range => .range

/-- `code(c)` as a response value, `zext_16` of the three-bit code (R63, R131). -/
def Cause.rsp (k : Cause) : Word := k.ecode.code.setWidth 16

/-- `STATUS = (LEN << 8) | (ECODE << 2) | PHASE`, a view of the state (R26). -/
def statusWord (b : Block) : Word :=
  (b.len.setWidth 16 <<< 8) ||| (b.ecode.code.setWidth 16 <<< 2) ||| b.phase.code.setWidth 16

/-- The output `fault`, the level `PHASE = FAULT` (R28). -/
def faultOutput (b : Block) : Bool := decide (b.phase = .fault)

end Sys2Proof.Machine
end

