-- ==== Sys2Proof/Machine/State.lean ====
section
/-! DEFINITION. Machine/State.lean: the block together with its command port and its response port, and the ways a step can
stop. -/

namespace Sys2Proof.Machine

/-- The answer to one command (30_encoding.md R63): `err` is 0 on success and 1 on a fault. -/
structure Response where
  err : Bool
  rsp : Word
  deriving DecidableEq, Repr

/-- One thing the host does to the block (00_scope.md R8, 70_reset_and_hazards.md R150). Log entries 1 and 4. -/
inductive Input where
  /-- Issue a command word and wait for its response (R8, R154). -/
  | command (w : CmdWord)
  /-- Reset the block, while `inFlight` (if any) was issued and not yet answered (R150). -/
  | reset (inFlight : Option CmdWord)
  deriving DecidableEq, Repr

/-- The machine: the block's architectural state (R20) and, as the model's own fields, its interface to the host. -/
structure State where
  /-- The five state elements of the block (R20). -/
  block : Block
  /-- What the host does next, oldest first; a step takes one. Log entry 1. -/
  inputs : List Input
  /-- The responses given so far, oldest first (R63). Log entry 2. -/
  responses : List Response
  deriving DecidableEq, Repr

/-- How a step can stop with a fault of the model. A fault of the BLOCK (R130) is no such stop: it is a next state. -/
inductive Fault where
  /-- Raised by `memRead` and `memWrite` for an offset at or above `W`, which does not exist (20_memory.md R40, R45). Safe:
  the spec's rules establish the bound before every access, so only states that break R30 item 1 reach it. Log entry 8. -/
  | outsideFrameBuffer (offset : Nat)
  deriving DecidableEq, Repr

/-- How a step can be refused. -/
inductive Refusal where
  /-- Raised by `exec` for an instruction without a meaning. Safe. No arm uses it: all seven operations are modelled. -/
  | notModelled (mnemonic : String)
  deriving DecidableEq, Repr

/-- The machine right after reset (R32, R150): the block at its reset values, the host not yet having issued anything. -/
def State.reset : State where
  block := Block.initial hw
  inputs := []
  responses := []

end Sys2Proof.Machine
end

