-- ==== Sys2Proof/Machine/Ops.lean ====
section
/-! DEFINITION. Machine/Ops.lean: the named operations over the frame buffer, the response port and the command port, the
fault mechanism (60_exceptions.md R130) and the way out of it that is not a command, reset (R138, R150). -/

namespace Sys2Proof.Machine

/-! ## The frame buffer as data -/

/-- The canonical form: offsets strictly rising, no entry equal to what an unlisted offset reads as. -/
abbrev Memory.wf (m : Memory) : Prop :=
  m.Pairwise (fun x y => x.1 < y.1) ∧ ∀ x ∈ m, x.2 ≠ 0

/-- Every listed offset exists, that is, lies below `W` (R40). -/
abbrev Memory.inside (c : Config) (m : Memory) : Prop := ∀ x ∈ m, x.1 < c.width

/-- The byte at offset `a`: the listed one, else 0x00 (R32). -/
def Memory.get : Memory → Nat → Byte
  | [], _ => 0
  | (k, v) :: rest, a => if k = a then v else Memory.get rest a

/-- `m` without its entry for `a`, so that `a` reads 0x00. -/
def Memory.erase (m : Memory) (a : Nat) : Memory := m.filter (fun x => x.1 != a)

/-- The entry `(a, v)` put in its place by offset. -/
def Memory.insertCell : Memory → Nat → Byte → Memory
  | [], a, v => [(a, v)]
  | (k, u) :: rest, a, v => if a < k then (a, v) :: (k, u) :: rest else (k, u) :: Memory.insertCell rest a v

/-- `m` with byte `v` at offset `a`. -/
def Memory.set (m : Memory) (a : Nat) (v : Byte) : Memory :=
  if v = 0 then m.erase a else (m.erase a).insertCell a v

/-! ## The memory primitives of the pseudocode -/

/-- `MemRead(a, 1)` (R45). -/
def memRead (c : Config) (m : Memory) (a : Nat) : Except Fault Byte :=
  if a < c.width then .ok (m.get a) else .error (.outsideFrameBuffer a)

/-- `MemWrite(a, 1, v)` (R45). -/
def memWrite (c : Config) (m : Memory) (a : Nat) (v : Byte) : Except Fault Memory :=
  if a < c.width then .ok (m.set a v) else .error (.outsideFrameBuffer a)

/-- `MemWrite` of `v` at the `n` offsets from `a` on, in rising order (the `for` of R103). -/
def memFill (c : Config) (v : Byte) : Nat → Nat → Memory → Except Fault Memory
  | _, 0, m => .ok m
  | a, n + 1, m =>
    match memWrite c m a v with
    | .error f => .error f
    | .ok m' => memFill c v (a + 1) n m'

/-! ## The response port and the fault mechanism -/

/-- `return v`: the command answers `err = 0`, `rsp = v` (R7, R63). -/
def succeed (v : Word) (s : State) : State :=
  { s with responses := s.responses ++ [⟨false, v⟩] }

/-- What a fault does to the block: the first one records its cause and enters FAULT, a later one changes nothing (R130). -/
def Block.raise (k : Cause) (b : Block) : Block :=
  if b.phase = .fault then b else { b with ecode := k.ecode, phase := .fault }

/-- `raise k`: taking a fault (R130). The command answers `err = 1` with the code of this fault's cause. -/
def raise (k : Cause) (s : State) : State :=
  { s with block := s.block.raise k, responses := s.responses ++ [⟨true, k.rsp⟩] }

/-! ## The command port -/

/-- Take the oldest thing the host does, if there is one (R8, R154). -/
def takeInput (s : State) : Option (Input × State) :=
  match s.inputs with
  | [] => none
  | x :: rest => some (x, { s with inputs := rest })

/-- The host does nothing, so the block does nothing. Log entry 3. -/
def idle (s : State) : Host.Outcome State Fault Refusal := .next s

/-- Reset: every element at its reset value; a command in flight gets no response and has no effect (R150). -/
def applyReset (_inFlight : Option CmdWord) (s : State) : Host.Outcome State Fault Refusal :=
  .next { s with block := Block.initial hw }

end Sys2Proof.Machine
end

