-- ==== Sys2Proof/Machine/Control.lean ====
section
/-! DEFINITION. Machine/Control.lean: the operations NOP, CLR and RDST (42_control.md R120 to R122), and what a reserved word
does (60_exceptions.md R133). -/

namespace Sys2Proof.Machine

/-- `NOP` (R120). -/
def execNop (s : State) : Host.Outcome State Fault Refusal := .next (succeed 0 s)

/-- `CLR` (R121): all five elements at their initial values, whatever the state before. -/
def execClr (s : State) : Host.Outcome State Fault Refusal :=
  .next (succeed 0 { s with block := Block.initial hw })

/-- `RDST` (R122). -/
def execRdst (s : State) : Host.Outcome State Fault Refusal := .next (succeed (statusWord s.block) s)

/-- A reserved word raises ILLEGAL in every phase, for either reason (R64, R133). -/
def reservedWord (_why : Reserved) (s : State) : Host.Outcome State Fault Refusal := .next (raise .illegal s)

end Sys2Proof.Machine
end

