-- ==== Sys2Proof/Machine/Checksum.lean ====
section
/-! DEFINITION. Machine/Checksum.lean: the checksum functions (40_checksum.md R80 to R84) and the operations PUSH and RDCK
(R88, R89). -/

namespace Sys2Proof.Machine

/-- One iteration (R80): the tested bit is bit 15 before the shift. -/
def crcBit (c : Config) (a : Word) : Word :=
  if a.getLsbD 15 then (a <<< 1) ^^^ c.poly else a <<< 1

/-- `n` iterations; with `n = 8` the `s8` of R86. -/
def crcBits (c : Config) : Nat → Word → Word
  | 0, a => a
  | n + 1, a => crcBits c n (crcBit c a)

/-- The payload byte XORed into the accumulator, at the place INJECT says (R81, R82). -/
def injectByte (c : Config) (a : Word) (b : Byte) : Word :=
  match c.inject with
  | .low => a ^^^ zext16 b
  | .high => a ^^^ (zext16 b <<< 8)

/-- One byte: the XOR once, then the iterations (R81, R82). -/
def crcByte (c : Config) (a : Word) (b : Byte) : Word := crcBits c c.iter (injectByte c a b)

/-- The accumulator after a payload, first byte first (R83). -/
def crcAcc (c : Config) (p : List Byte) : Word := p.foldl (crcByte c) c.init

/-- The checksum an accumulator stands for, `~ACC & 0xFFFF`, written with the parameter XOROUT (R84). -/
def finishChecksum (c : Config) (a : Word) : Word := a ^^^ c.xorOut

/-- `computeChecksum(p)` (R84, R87). -/
def checksum (c : Config) (p : List Byte) : Word := finishChecksum c (crcAcc c p)

/-- `PUSH b` (R88). -/
def execPush (b : Byte) (s : State) : Host.Outcome State Fault Refusal :=
  if s.block.phase ≠ .load then .next (raise .sequence s)
  else if s.block.len.toNat = hw.maxLen then .next (raise .overflow s)
  else
    match memWrite hw s.block.fb (payloadEnd s.block.len) b with
    | .error f => .fault f
    | .ok fb =>
      .next (succeed 0
        { s with block := { s.block with acc := crcByte hw s.block.acc b, len := s.block.len + 1, fb := fb } })

/-- `RDCK` (R89). -/
def execRdck (s : State) : Host.Outcome State Fault Refusal :=
  if s.block.phase = .fault then .next (raise .sequence s)
  else .next (succeed (finishChecksum hw s.block.acc) s)

end Sys2Proof.Machine
end

