-- ==== Sys2Proof/Machine/Frame.lean ====
section
/-! DEFINITION. Machine/Frame.lean: the frame function (41_frame.md R100, R101) and the operations FIN and RDF (R103,
R104). -/

namespace Sys2Proof.Machine

/-- The checksum's two bytes in the order they stand in the frame (R4 CKORDER, R42). -/
def checksumBytes (c : Config) (ck : Word) : Byte × Byte :=
  match c.ckOrder with
  | .highFirst => (highByte ck, lowByte ck)
  | .lowFirst => (lowByte ck, highByte ck)

/-- `frame(p)` (R66, R100): header, payload, checksum, padding. -/
def frame (c : Config) (p : List Byte) : List Byte :=
  [c.hdr] ++ p ++ [(checksumBytes c (checksum c p)).1, (checksumBytes c (checksum c p)).2]
    ++ List.replicate (c.width - p.length - 3) c.pad

/-- `build(p)`: the frame, or a failure when the payload does not fit (R101). -/
def build (c : Config) (p : List Byte) : Option (List Byte) :=
  if p.length + 3 ≤ c.width then some (frame c p) else none

/-- What `FIN` writes into the frame buffer, in the order of R103. -/
def placeFrame (c : Config) (ck : Word) (len : BitVec 8) (m : Memory) : Except Fault Memory := do
  let m ← memWrite c m headerOffset c.hdr
  let m ← memWrite c m (payloadEnd len) (checksumBytes c ck).1
  let m ← memWrite c m (checksumEnd len) (checksumBytes c ck).2
  memFill c c.pad (paddingStart len) (c.width - paddingStart len) m

/-- `FIN` (R103). -/
def execFin (s : State) : Host.Outcome State Fault Refusal :=
  if s.block.phase ≠ .load then .next (raise .sequence s)
  else
    match placeFrame hw (finishChecksum hw s.block.acc) s.block.len s.block.fb with
    | .error f => .fault f
    | .ok fb => .next (succeed 0 { s with block := { s.block with fb := fb, phase := .done } })

/-- `RDF off` (R104). -/
def execRdf (off : Byte) (s : State) : Host.Outcome State Fault Refusal :=
  if s.block.phase ≠ .done then .next (raise .sequence s)
  else if hw.width ≤ absoluteOffset off then .next (raise .range s)
  else
    match memRead hw s.block.fb (absoluteOffset off) with
    | .error f => .fault f
    | .ok v => .next (succeed (zext16 v) s)

end Sys2Proof.Machine
end

