-- ==== Sys2Proof/Machine/Dispatch.lean ====
section
/-! DEFINITION. Machine/Dispatch.lean: one arm per operation, in the table's order (30_encoding.md R61). -/

namespace Sys2Proof.Machine

def exec (i : Instr) (s : State) : Host.Outcome State Fault Refusal :=
  match i with
  | .nop => Sys2Proof.Machine.execNop s
  | .clr => Sys2Proof.Machine.execClr s
  | .push b => Sys2Proof.Machine.execPush b s
  | .fin => Sys2Proof.Machine.execFin s
  | .rdf off => Sys2Proof.Machine.execRdf off s
  | .rdck => Sys2Proof.Machine.execRdck s
  | .rdst => Sys2Proof.Machine.execRdst s

end Sys2Proof.Machine
end

