-- ==== Sys2Proof/Machine/Step.lean ====
section
/-! DEFINITION. Machine/Step.lean: one step of the machine (00_scope.md R8, 30_encoding.md R65): the block takes the oldest
thing the host does and answers it. -/

namespace Sys2Proof.Machine

/-- One step: decode first, so that a reserved word raises ILLEGAL before any phase test (R65, R136). -/
def step (s : State) : Host.Outcome State Fault Refusal :=
  match takeInput s with
  | none => idle s
  | some (.reset inFlight, s') => applyReset inFlight s'
  | some (.command w, s') =>
    match decode w with
    | .ok i => exec i s'
    | .error why => reservedWord why s'

/-- `s` with the host about to issue the word next (the block has no program counter and fetches nothing, 10_state.md R27).
A word that does not fit 11 bits is no command word and is not issued. Log entry 5. -/
def State.withFetchWord (s : State) (nbits w : Nat) : State :=
  match tableCommandWord nbits w with
  | none => s
  | some cmd => { s with inputs := .command cmd :: s.inputs }

end Sys2Proof.Machine
end

