-- ==== Sys2Proof/Machine/Assembler.lean ====
section
/-! DEFINITION. Machine/Assembler.lean: the assembler syntax (30_encoding.md R70) and the macro-operations (R71, R72). A
source line is a list of characters. Log entry 10 lists what R70 leaves open. -/

namespace Sys2Proof.Machine

/-- The line without its comment (R70: anything after `;`). -/
def withoutComment (line : List Char) : List Char := line.takeWhile (fun ch => ch != ';')

/-- The words of a line; `cur` is the word being read. Blanks are spaces and tabs. -/
def sourceWords : List Char → List Char → List (List Char)
  | [], cur => if cur.isEmpty then [] else [cur]
  | ch :: rest, cur =>
    if ch == ' ' || ch == '\t' then
      (if cur.isEmpty then sourceWords rest [] else cur :: sourceWords rest [])
    else sourceWords rest (cur ++ [ch])

/-- The value of a decimal digit. -/
def decimalDigit (ch : Char) : Option Nat :=
  if 48 ≤ ch.toNat ∧ ch.toNat ≤ 57 then some (ch.toNat - 48) else none

/-- The value of a hexadecimal digit of either case. -/
def hexDigit (ch : Char) : Option Nat :=
  if 48 ≤ ch.toNat ∧ ch.toNat ≤ 57 then some (ch.toNat - 48)
  else if 65 ≤ ch.toNat ∧ ch.toNat ≤ 70 then some (ch.toNat - 55)
  else if 97 ≤ ch.toNat ∧ ch.toNat ≤ 102 then some (ch.toNat - 87)
  else none

/-- The digits of a numeral read from the left, `acc` being the value so far. -/
def numeral (base : Nat) (digit : Char → Option Nat) : Nat → List Char → Option Nat
  | acc, [] => some acc
  | acc, ch :: rest =>
    match digit ch with
    | none => none
    | some d => numeral base digit (acc * base + d) rest

/-- An unsigned number, decimal or hexadecimal with the prefix `0x` (R70). -/
def sourceNumber (cs : List Char) : Option Nat :=
  match cs with
  | [] => none
  | ['0', 'x'] => none
  | '0' :: 'x' :: digits => numeral 16 hexDigit 0 digits
  | digits => numeral 10 decimalDigit 0 digits

/-- The operations without operand, by their mnemonic (R61, R70). -/
def plainMnemonic (m : List Char) : Option Instr :=
  if m = ['N', 'O', 'P'] then some .nop
  else if m = ['C', 'L', 'R'] then some .clr
  else if m = ['F', 'I', 'N'] then some .fin
  else if m = ['R', 'D', 'C', 'K'] then some .rdck
  else if m = ['R', 'D', 'S', 'T'] then some .rdst
  else none

/-- The operations with an operand, by their mnemonic (R61, R70). -/
def operandMnemonic (m : List Char) (operand : Byte) : Option Instr :=
  if m = ['P', 'U', 'S', 'H'] then some (.push operand)
  else if m = ['R', 'D', 'F'] then some (.rdf operand)
  else none

/-- The operation a line stands for; none where the assembler refuses the line (R70). -/
def parseLine (line : List Char) : Option Instr :=
  match sourceWords (withoutComment line) [] with
  | [m] => plainMnemonic m
  | [m, n] =>
    match sourceNumber n with
    | none => none
    | some v => if sourceOperandWf v then operandMnemonic m (BitVec.ofNat 8 v) else none
  | _ => none

/-- The one word the assembler emits for a line (R70). -/
def assembleLine (line : List Char) : Option CmdWord :=
  match parseLine line with
  | none => none
  | some i => some (encode i)

/-- The words of a program, one per line; none where a line is refused (R70). -/
def assemble : List (List Char) → Option (List CmdWord)
  | [] => some []
  | line :: rest =>
    match assembleLine line, assemble rest with
    | some w, some ws => some (w :: ws)
    | _, _ => none

/-- Macro `CHECKSUM p` (R71). -/
def macroChecksum (p : List Byte) : List Instr := .clr :: (p.map .push ++ [.rdck])

/-- Macro `BUILD p` (R72). -/
def macroBuild (p : List Byte) : List Instr := .clr :: (p.map .push ++ [.fin])

/-- Macro `DUMP`: `RDF 0`, `RDF 1`, ..., `RDF W-1` (R72). -/
def macroDump (c : Config) : List Instr := (List.range c.width).map (fun k => .rdf (BitVec.ofNat 8 k))

end Sys2Proof.Machine
end

