-- ==== Sys2Proof/Safety.lean ====
section
/-! DEFINITION. Safety.lean: the words claims are stated in: the pushed payload and the invariant (10_state.md R33, R30), the
phase table (R31), and the host's side of a run (70_reset_and_hazards.md R153, R155). -/

namespace Sys2Proof.Machine

/-! ## The payload and the invariant -/

/-- The pushed payload `P = FB[1..LEN]` (R33). -/
def payload (b : Block) : List Byte := (List.range b.len.toNat).map (fun k => b.fb.get (1 + k))

/-- R30 item 6 for the payload of `b`: the buffer holds `frame(P)`. -/
abbrev holdsFrame (c : Config) (b : Block) : Prop :=
  ∀ i ∈ List.range c.width, some (b.fb.get i) = (frame c (payload b))[i]?

/-- R30 item 7: nothing but padding bytes lies above the payload. -/
abbrev blankAbove (c : Config) (b : Block) : Prop :=
  ∀ i ∈ List.range c.width, b.len.toNat < i → b.fb.get i = 0

/-- The invariant of R30, items 1 and 3 to 8 (item 2 holds by the types of PHASE and ECODE), and the form of the memory. -/
structure Block.Inv (c : Config) (b : Block) : Prop where
  memory_wf : b.fb.wf
  memory_inside : b.fb.inside c
  len_bounded : b.len.toNat ≤ c.maxLen
  ecode_iff : b.ecode = .none ↔ b.phase ≠ .fault
  acc_payload : b.acc = crcAcc c (payload b)
  header : b.fb.get 0 = c.hdr
  done_frame : b.phase = .done → holdsFrame c b
  load_blank : b.phase = .load → blankAbove c b
  fault_either : b.phase = .fault → holdsFrame c b ∨ blankAbove c b

/-- The invariant of R30 for the machine. -/
abbrev State.Inv (s : State) : Prop := Block.Inv hw s.block

/-! ## The phase table -/

/-- Which cause a command faults with in a block, none where it succeeds: the table of R31, with the words of R131 and the
priority of R136. -/
def faultOf (c : Config) (b : Block) : Except Reserved Instr → Option Cause
  | .error _ => some .illegal
  | .ok .nop => none
  | .ok .clr => none
  | .ok (.push _) =>
    match b.phase with
    | .load => if b.len.toNat = c.maxLen then some .overflow else none
    | .done => some .sequence
    | .fault => some .sequence
  | .ok .fin =>
    match b.phase with
    | .load => none
    | .done => some .sequence
    | .fault => some .sequence
  | .ok (.rdf off) =>
    match b.phase with
    | .load => some .sequence
    | .done => if c.width ≤ off.toNat then some .range else none
    | .fault => some .sequence
  | .ok .rdck =>
    match b.phase with
    | .load => none
    | .done => none
    | .fault => some .sequence
  | .ok .rdst => none

/-- The next phase of the table of R31. -/
def phaseAfter (c : Config) (b : Block) (d : Except Reserved Instr) : Phase :=
  match faultOf c b d with
  | some _ => .fault
  | none =>
    match d with
    | .ok .clr => .load
    | .ok .fin => .done
    | .ok .nop => b.phase
    | .ok (.push _) => b.phase
    | .ok (.rdf _) => b.phase
    | .ok .rdck => b.phase
    | .ok .rdst => b.phase
    | .error _ => b.phase

/-! ## The host's side of a run -/

/-- The host issuing operations, one after the other (R60, R154). -/
def commands (l : List Instr) : List Input := l.map (fun i => .command (encode i))

/-- The bytes the operations push, in order. -/
def pushedBytes : List Instr → List Byte
  | [] => []
  | .push b :: rest => b :: pushedBytes rest
  | .nop :: rest => pushedBytes rest
  | .clr :: rest => pushedBytes rest
  | .fin :: rest => pushedBytes rest
  | .rdf _ :: rest => pushedBytes rest
  | .rdck :: rest => pushedBytes rest
  | .rdst :: rest => pushedBytes rest

/-- The operations that may stand between `CLR` and `FIN` while a payload is pushed (R90, R108). -/
def isLoading : Instr → Bool
  | .push _ => true
  | .nop => true
  | .rdck => true
  | .rdst => true
  | .clr => false
  | .fin => false
  | .rdf _ => false

/-- No command of the run faulted: the host's test before it hands a frame over (R144, R155). -/
abbrev allSucceeded (rs : List Response) : Prop := ∀ r ∈ rs, r.err = false

/-- The responses that a run from `s` to `t` added. -/
def newResponses (s t : State) : List Response := t.responses.drop s.responses.length

end Sys2Proof.Machine
end

