-- ==== Sys2Proof/Certificates/Slice0/Obligations.lean ====
section
/-! DEFINITION. Certificates/Slice0/Obligations.lean: the statements for the provers. `exec` sees a state whose command has
already left `inputs`; a response is appended to `responses` (log entries 1 and 2). -/

open Sys2Proof Sys2Proof.Machine

/-! ## Encoding -/

/-- R60, R61, R65: decoding the word of an operation gives the operation back, with every operand. -/
def Obligations.DecodeOfEncode : Prop := ∀ i : Instr, i.wf = true → decode (encode i) = .ok i

/-- R60, R65: a word has one meaning; the word of what it decodes to is the word itself, so no bit is dropped. -/
def Obligations.EncodeOfDecode : Prop := ∀ (w : CmdWord) (i : Instr), decode w = .ok i → encode i = w

/-- R65: the decoder is the chain of cases the rule writes, and `Reserved` raises ILLEGAL before any phase test. -/
def Obligations.DecodeFollowsCases : Prop :=
  (∀ w : CmdWord,
    (decode w).toOption =
      if w.extractLsb' 8 3 = 0 ∧ w.extractLsb' 0 8 = 0 then some .nop
      else if w.extractLsb' 8 3 = 1 ∧ w.extractLsb' 0 8 = 0 then some .clr
      else if w.extractLsb' 8 3 = 2 then some (.push (w.extractLsb' 0 8))
      else if w.extractLsb' 8 3 = 3 ∧ w.extractLsb' 0 8 = 0 then some .fin
      else if w.extractLsb' 8 3 = 4 then some (.rdf (w.extractLsb' 0 8))
      else if w.extractLsb' 8 3 = 5 ∧ w.extractLsb' 0 8 = 0 then some .rdck
      else if w.extractLsb' 8 3 = 6 ∧ w.extractLsb' 0 8 = 0 then some .rdst
      else none) ∧
  (∀ (s : State) (w : CmdWord) (rest : List Input), s.inputs = .command w :: rest → (decode w).toOption = none →
    step s = .next (raise .illegal { s with inputs := rest }))

/-- R61: a word selects a row of the table exactly when it decodes to that row's operation, no two rows overlap, and 517 of
the 2048 words select one. -/
def Obligations.RowsSelectDecodedWords : Prop :=
  (∀ r ∈ opcodeRows, ∀ w : CmdWord, w &&& r.mask = r.pattern ↔ ∃ i, decode w = .ok i ∧ rowOf i = r) ∧
  opcodeRows.Pairwise (fun r r' => ∀ w : CmdWord, ¬(w &&& r.mask = r.pattern ∧ w &&& r'.mask = r'.pattern)) ∧
  ((List.range 2048).filter (fun n => (decode (BitVec.ofNat 11 n)).isOk)).length = 517

/-- R61, R64: words written out from the table decode to the operations they stand for, and reserved ones to none. -/
def Obligations.SpecWordsDecode : Prop :=
  decode 0b00000000000 = .ok .nop ∧ decode 0b00100000000 = .ok .clr ∧ decode 0b01000000011 = .ok (.push 0x03) ∧
  decode 0b01100000000 = .ok .fin ∧ decode 0b10000111111 = .ok (.rdf 63) ∧ decode 0b10100000000 = .ok .rdck ∧
  decode 0b11000000000 = .ok .rdst ∧ decode 0b00100000001 = .error .operand ∧ decode 0b11110101011 = .error .opcode

/-- R70: the assembler never emits a reserved word; what it emits is the word of the operation it read. -/
def Obligations.AssemblerNeverReserved : Prop :=
  ∀ (line : List Char) (w : CmdWord), assembleLine line = some w →
    ∃ i, decode w = .ok i ∧ parseLine line = some i

/-! ## The step and reset -/

/-- R8, R65: a step with a command waiting whose word decodes runs the decoded operation on the state without that command. -/
def Obligations.StepRunsDecoded : Prop :=
  ∀ (s : State) (w : CmdWord) (rest : List Input) (i : Instr),
    s.inputs = .command w :: rest → decode w = .ok i → step s = exec i { s with inputs := rest }

/-- The model's choice (log entry 3): with nothing from the host, a step changes nothing. -/
def Obligations.IdleStepChangesNothing : Prop := ∀ s : State, s.inputs = [] → step s = .next s

/-- R133: a reserved word raises ILLEGAL in every phase and does nothing else; in FAULT it only produces the response. -/
def Obligations.ReservedWordRaisesIllegal : Prop :=
  ∀ (s : State) (w : CmdWord) (rest : List Input),
    s.inputs = .command w :: rest →
    (w.extractLsb' 8 3 = 7 ∨
      ((w.extractLsb' 8 3 = 0 ∨ w.extractLsb' 8 3 = 1 ∨ w.extractLsb' 8 3 = 3 ∨ w.extractLsb' 8 3 = 5 ∨
        w.extractLsb' 8 3 = 6) ∧ w.extractLsb' 0 8 ≠ 0)) →
    step s = .next
      { block :=
          { acc := s.block.acc, len := s.block.len, fb := s.block.fb, phase := .fault
            ecode := if s.block.phase = .fault then s.block.ecode else .illegal }
        inputs := rest
        responses := s.responses ++ [⟨true, 0x0002⟩] }

/-- R32: the value of every element after reset. -/
def Obligations.ResetValues : Prop :=
  State.reset.block.acc = 0xFFFF ∧ State.reset.block.len = 0 ∧ (∀ i < 64, State.reset.block.fb.get i = 0x00) ∧
  State.reset.block.phase = .load ∧ State.reset.block.phase.code = 0 ∧ State.reset.block.ecode = .none ∧
  State.reset.block.ecode.code = 0 ∧ statusWord State.reset.block = 0x0000 ∧ faultOutput State.reset.block = false

/-- R150: reset in any state puts every element at its reset value; a command in flight gets no response.
(That a reset is an entry of `inputs` is the model's representation, log entry 4.) -/
def Obligations.ResetFromAnyState : Prop :=
  ∀ (s : State) (inFlight : Option CmdWord) (rest : List Input),
    s.inputs = .reset inFlight :: rest →
    ∃ t, step s = .next t ∧ t.block = State.reset.block ∧ t.block.acc = 0xFFFF ∧ t.block.len = 0 ∧
      (∀ i, t.block.fb.get i = 0) ∧ t.block.phase = .load ∧ t.block.ecode = .none ∧ statusWord t.block = 0 ∧
      faultOutput t.block = false ∧ t.inputs = rest ∧ t.responses = s.responses

/-- R4, R5: the parameters of this hardware, and that they meet the constraints between parameters. -/
def Obligations.ParameterValues : Prop :=
  hw.width = 64 ∧ hw.maxLen = 61 ∧ hw.init = 0xFFFF ∧ hw.poly = 0x1021 ∧ hw.xorOut = 0xFFFF ∧ hw.inject = .low ∧
  hw.iter = 8 ∧ hw.hdr = 0x00 ∧ hw.pad = 0x00 ∧ hw.ckOrder = .highFirst ∧ hw.wf = true ∧
  ∀ op, 1 ≤ Config.latency op

/-! ## The operations -/

/-- R120: `NOP` answers (0, 0) in every phase and changes nothing; with data not zero its word is reserved and raises
ILLEGAL. -/
def Obligations.NopDoesNothing : Prop :=
  encode .nop = 0x000 ∧
  (∀ s : State, exec .nop s =
    .next { block := s.block, inputs := s.inputs, responses := s.responses ++ [⟨false, 0x0000⟩] }) ∧
  (∀ (s : State) (w : CmdWord) (rest : List Input), s.inputs = .command w :: rest → w.extractLsb' 8 3 = 0 →
    w.extractLsb' 0 8 ≠ 0 → step s = .next (raise .illegal { s with inputs := rest }))

/-- R121: `CLR` succeeds in every phase and leaves the reset state of the block, whatever the state before; with data not
zero its word is reserved and clears nothing; twice is the same as once. -/
def Obligations.ClrStartsFreshFrame : Prop :=
  encode .clr = 0x100 ∧
  (∀ s : State, ∃ t, exec .clr s = .next t ∧ t.block = State.reset.block ∧ t.block.acc = 0xFFFF ∧ t.block.len = 0 ∧
    (∀ i < 64, t.block.fb.get i = 0x00) ∧ t.block.phase = .load ∧ t.block.ecode = .none ∧ statusWord t.block = 0 ∧
    t.inputs = s.inputs ∧ t.responses = s.responses ++ [⟨false, 0x0000⟩] ∧
    ∃ u, exec .clr t = .next u ∧ u.block = t.block) ∧
  (∀ (s : State) (w : CmdWord) (rest : List Input), s.inputs = .command w :: rest → w.extractLsb' 8 3 = 1 →
    w.extractLsb' 0 8 ≠ 0 → step s = .next (raise .illegal { s with inputs := rest }))

/-- R88: `PUSH b` in LOAD below the limit writes the byte at `1 + LEN`, advances ACC and LEN and leaves the rest; at the
limit it raises OVERFLOW, outside LOAD SEQUENCE. The example of the rule closes it. -/
def Obligations.PushAppendsOrFaults : Prop :=
  (∀ b : Byte, encode (.push b) = 0x200 ||| b.setWidth 11) ∧
  (∀ (b : Byte) (s : State), s.block.phase ≠ .load → exec (.push b) s = .next (raise .sequence s)) ∧
  (∀ (b : Byte) (s : State), s.block.phase = .load → s.block.len.toNat = 61 →
    exec (.push b) s = .next (raise .overflow s)) ∧
  (∀ (b : Byte) (s : State), s.block.phase = .load → s.block.len.toNat < 61 →
    ∃ fb, exec (.push b) s = .next
        { block :=
            { acc := crcByte hw s.block.acc b, len := s.block.len + 1, fb := fb, phase := .load
              ecode := s.block.ecode }
          inputs := s.inputs
          responses := s.responses ++ [⟨false, 0x0000⟩] } ∧
      fb.get (payloadEnd s.block.len) = b ∧ payloadEnd s.block.len = 1 + s.block.len.toNat ∧
      ∀ i, i ≠ payloadEnd s.block.len → fb.get i = s.block.fb.get i) ∧
  (∃ t, exec (.push 0x03) State.reset = .next t ∧ t.block.fb.get 1 = 0x03 ∧ t.block.acc = 0xE2F0 ∧ t.block.len = 1 ∧
    t.responses = [⟨false, 0x0000⟩])

/-- R103: `FIN` in LOAD writes the header, the checksum high byte first and the padding, enters DONE and leaves ACC, LEN,
ECODE and the payload; outside LOAD it raises SEQUENCE, with data not zero its word is reserved. `LEN <= 61` is R30 item 1.
The corner case of the empty payload, the bytes that already hold what is written, and the example of the rule close it. -/
def Obligations.FinPlacesFrameOrFaults : Prop :=
  encode .fin = 0x300 ∧
  (∀ s : State, s.block.phase ≠ .load → exec .fin s = .next (raise .sequence s)) ∧
  (∀ s : State, s.block.phase = .load → s.block.len.toNat ≤ 61 →
    ∃ fb, exec .fin s = .next
        { block := { acc := s.block.acc, len := s.block.len, fb := fb, phase := .done, ecode := s.block.ecode }
          inputs := s.inputs
          responses := s.responses ++ [⟨false, 0x0000⟩] } ∧
      fb.get headerOffset = 0x00 ∧ headerOffset = 0 ∧
      fb.get (payloadEnd s.block.len) = (~~~s.block.acc).extractLsb' 8 8 ∧
      payloadEnd s.block.len = 1 + s.block.len.toNat ∧
      fb.get (checksumEnd s.block.len) = (~~~s.block.acc).extractLsb' 0 8 ∧
      checksumEnd s.block.len = 2 + s.block.len.toNat ∧
      (∀ i, paddingStart s.block.len ≤ i → i ≤ 63 → fb.get i = 0x00) ∧
      paddingStart s.block.len = 3 + s.block.len.toNat ∧
      (∀ i, 1 ≤ i → i ≤ s.block.len.toNat → fb.get i = s.block.fb.get i) ∧
      (∀ i, 63 < i → fb.get i = s.block.fb.get i)) ∧
  (∀ w : CmdWord, w.extractLsb' 8 3 = 3 → w.extractLsb' 0 8 ≠ 0 → decode w = .error .operand) ∧
  (∀ s : State, s.block.phase = .load → s.block.acc = 0xFFFF → s.block.len = 0 →
    ∃ t, exec .fin s = .next t ∧ ∀ i < 64, t.block.fb.get i = 0x00) ∧
  (∀ s : State, s.Inv → s.block.phase = .load →
    s.block.fb.get 0 = 0x00 ∧ ∀ i, 3 + s.block.len.toNat ≤ i → i ≤ 63 → s.block.fb.get i = 0x00) ∧
  (∀ s : State, s.block.phase = .load → s.block.acc = 0x76D0 → s.block.len = 3 →
    ∃ t, exec .fin s = .next t ∧ t.block.fb.get 4 = 0x89 ∧ t.block.fb.get 5 = 0x2F ∧ t.block.phase = .done ∧
      t.responses = s.responses ++ [⟨false, 0x0000⟩])

/-- R104: `RDF off` in DONE answers the byte at `off` below 64 and raises RANGE at or above it; outside DONE it raises
SEQUENCE, whatever the offset. `RDF 0` answers 0x0000 in every state that meets the invariant; the example of the rule
closes it. -/
def Obligations.RdfReadsOrFaults : Prop :=
  (∀ off : Byte, encode (.rdf off) = 0x400 ||| off.setWidth 11) ∧
  (∀ (off : Byte) (s : State), s.block.phase ≠ .done → exec (.rdf off) s = .next (raise .sequence s)) ∧
  (∀ (off : Byte) (s : State), s.block.phase = .done → 64 ≤ off.toNat →
    exec (.rdf off) s = .next (raise .range s)) ∧
  (∀ (off : Byte) (s : State), s.block.phase = .done → off.toNat < 64 →
    exec (.rdf off) s = .next
      { block := s.block, inputs := s.inputs
        responses := s.responses ++ [⟨false, (s.block.fb.get off.toNat).setWidth 16⟩] }) ∧
  (∀ s : State, s.Inv → s.block.phase = .done →
    exec (.rdf 0) s = .next
      { block := s.block, inputs := s.inputs, responses := s.responses ++ [⟨false, 0x0000⟩] }) ∧
  (∀ s : State, s.block.phase = .load → s.block.acc = 0x76D0 → s.block.len = 3 →
    ∃ t, exec .fin s = .next t ∧
      exec (.rdf 4) t = .next { t with responses := t.responses ++ [⟨false, 0x0089⟩] } ∧
      exec (.rdf 5) t = .next { t with responses := t.responses ++ [⟨false, 0x002F⟩] })

/-- R89: `RDCK` answers the complement of ACC in LOAD and in DONE, raises SEQUENCE in FAULT, and after `FIN` answers the 16
bits that `FIN` placed in the frame. Directly after reset and after `CLR` that is 0x0000; in every state that meets the
invariant it is the checksum of the pushed payload. With data not zero its word is reserved. -/
def Obligations.RdckReadsChecksumOrFaults : Prop :=
  encode .rdck = 0x500 ∧
  (∀ s : State, s.block.phase = .fault → exec .rdck s = .next (raise .sequence s)) ∧
  (∀ s : State, s.block.phase ≠ .fault →
    exec .rdck s = .next
      { block := s.block, inputs := s.inputs, responses := s.responses ++ [⟨false, ~~~s.block.acc⟩] }) ∧
  (∀ w : CmdWord, w.extractLsb' 8 3 = 5 → w.extractLsb' 0 8 ≠ 0 → decode w = .error .operand) ∧
  exec .rdck State.reset = .next { State.reset with responses := [⟨false, 0x0000⟩] } ∧
  (∀ s : State, ∃ t, exec .clr s = .next t ∧
    exec .rdck t = .next { t with responses := t.responses ++ [⟨false, 0x0000⟩] }) ∧
  (∀ s : State, s.Inv → ~~~s.block.acc = checksum hw (payload s.block)) ∧
  checksum hw [0x03, 0xF0, 0x00] = 0x892F ∧
  (∀ s t : State, s.block.phase = .load → s.block.len.toNat ≤ 61 → exec .fin s = .next t →
    exec .rdck t = .next
      { block := t.block, inputs := t.inputs
        responses := t.responses ++
          [⟨false, t.block.fb.get (1 + s.block.len.toNat) ++ t.block.fb.get (2 + s.block.len.toNat)⟩] })

/-- R122: `RDST` answers STATUS in every phase and changes nothing; bits [7:5] are 0; with data not zero its word is
reserved; it is the only read that succeeds in FAULT, where `RDF` and `RDCK` raise SEQUENCE; the examples of the rule. -/
def Obligations.RdstReadsStatus : Prop :=
  encode .rdst = 0x600 ∧
  (∀ s : State, ∃ v : Word,
    exec .rdst s = .next { block := s.block, inputs := s.inputs, responses := s.responses ++ [⟨false, v⟩] } ∧
    v.toNat = s.block.len.toNat * 256 + s.block.ecode.code.toNat * 4 + s.block.phase.code.toNat ∧
    v.extractLsb' 5 3 = 0) ∧
  (∀ w : CmdWord, w.extractLsb' 8 3 = 6 → w.extractLsb' 0 8 ≠ 0 → decode w = .error .operand) ∧
  (∀ (off : Byte) (s : State), s.block.phase = .fault → exec (.rdf off) s = .next (raise .sequence s)) ∧
  (∀ s : State, s.block.phase = .fault → exec .rdck s = .next (raise .sequence s)) ∧
  (∀ (s : State), s.block.len = 3 → s.block.ecode = .none → s.block.phase = .load →
    exec .rdst s = .next { s with responses := s.responses ++ [⟨false, 0x0300⟩] }) ∧
  (∀ (s : State), s.block.len = 3 → s.block.ecode = .none → s.block.phase = .done →
    exec .rdst s = .next { s with responses := s.responses ++ [⟨false, 0x0301⟩] }) ∧
  (∀ (s : State), s.block.len = 61 → s.block.ecode = .overflow → s.block.phase = .fault →
    exec .rdst s = .next { s with responses := s.responses ++ [⟨false, 0x3D06⟩] })

/-- R26: the fields of STATUS for every block, its reset value and the rule's example. -/
def Obligations.StatusFields : Prop :=
  (∀ b : Block,
    (statusWord b).extractLsb' 0 2 = b.phase.code ∧ (statusWord b).extractLsb' 0 2 ≠ 3 ∧
    (statusWord b).extractLsb' 2 3 = b.ecode.code ∧ ((statusWord b).extractLsb' 2 3).toNat ≤ 4 ∧
    (statusWord b).extractLsb' 5 3 = 0 ∧ (statusWord b).extractLsb' 8 8 = b.len ∧
    (faultOutput b = true ↔ (statusWord b).extractLsb' 0 2 = 2)) ∧
  (∀ p : Phase, p.code = match p with | .load => 0 | .done => 1 | .fault => 2) ∧
  (∀ b : Block, Block.Inv hw b → ((statusWord b).extractLsb' 8 8).toNat ≤ 61) ∧
  (∀ b : Block, b.len = 3 → b.ecode = .none → b.phase = .done → statusWord b = 0x0301)

/-! ## Faults -/

/-- R130: what a fault does, exactly, with the codes of R131. -/
def Obligations.RaiseRecordsFirstCause : Prop :=
  (∀ (k : Cause) (s : State), s.block.phase ≠ .fault →
    raise k s =
      { block := { acc := s.block.acc, len := s.block.len, fb := s.block.fb, phase := .fault, ecode := k.ecode }
        inputs := s.inputs
        responses := s.responses ++ [⟨true, k.ecode.code.setWidth 16⟩] }) ∧
  (∀ (k : Cause) (s : State), s.block.phase = .fault →
    raise k s =
      { block := s.block, inputs := s.inputs, responses := s.responses ++ [⟨true, k.ecode.code.setWidth 16⟩] }) ∧
  Cause.overflow.ecode.code = 1 ∧ Cause.illegal.ecode.code = 2 ∧ Cause.sequence.ecode.code = 3 ∧
  Cause.range.ecode.code = 4 ∧ ECode.none.code = 0

/-- R139: a command that answers `err = 1` leaves ACC, LEN and every byte of FB, and the block in FAULT; a fault outside
FAULT records the code it answers, a fault in FAULT changes nothing of the block. -/
def Obligations.FaultsArePrecise : Prop :=
  ∀ (s t : State) (w : CmdWord) (rest : List Input) (v : Word),
    s.inputs = .command w :: rest → step s = .next t → t.responses = s.responses ++ [⟨true, v⟩] →
    t.block.acc = s.block.acc ∧ t.block.len = s.block.len ∧ t.block.fb = s.block.fb ∧ t.block.phase = .fault ∧
    t.inputs = rest ∧ (s.block.phase = .fault → t.block = s.block) ∧
    (s.block.phase ≠ .fault → t.block.ecode.code.setWidth 16 = v)

/-- R138: in FAULT, `NOP` and `RDST` succeed and change nothing, `CLR` and reset recover, every other operation raises
SEQUENCE and every reserved word ILLEGAL, and those change no state of the block. -/
def Obligations.FaultLeftOnlyByClrOrReset : Prop :=
  (∀ (s : State) (w : CmdWord) (rest : List Input),
    s.block.phase = .fault → s.inputs = .command w :: rest →
    step s =
      match decode w with
      | .ok .clr =>
        .next { block := State.reset.block, inputs := rest, responses := s.responses ++ [⟨false, 0x0000⟩] }
      | .ok .nop => .next { block := s.block, inputs := rest, responses := s.responses ++ [⟨false, 0x0000⟩] }
      | .ok .rdst =>
        .next { block := s.block, inputs := rest, responses := s.responses ++ [⟨false, statusWord s.block⟩] }
      | .ok (.push _) => .next { block := s.block, inputs := rest, responses := s.responses ++ [⟨true, 0x0003⟩] }
      | .ok .fin => .next { block := s.block, inputs := rest, responses := s.responses ++ [⟨true, 0x0003⟩] }
      | .ok (.rdf _) => .next { block := s.block, inputs := rest, responses := s.responses ++ [⟨true, 0x0003⟩] }
      | .ok .rdck => .next { block := s.block, inputs := rest, responses := s.responses ++ [⟨true, 0x0003⟩] }
      | .error _ => .next { block := s.block, inputs := rest, responses := s.responses ++ [⟨true, 0x0002⟩] }) ∧
  (∀ (s : State) (inFlight : Option CmdWord) (rest : List Input),
    s.block.phase = .fault → s.inputs = .reset inFlight :: rest →
    step s = .next { block := State.reset.block, inputs := rest, responses := s.responses })

/-- R31, R134, R136: every command in every phase completes with the next phase and the fault cause of the table. `LEN <= 61`
is R30 item 1. -/
def Obligations.PhaseTableFollowed : Prop :=
  ∀ (s : State) (w : CmdWord) (rest : List Input),
    s.block.len.toNat ≤ 61 → s.inputs = .command w :: rest →
    ∃ t, step s = .next t ∧ t.block.phase = phaseAfter hw s.block (decode w) ∧
      match faultOf hw s.block (decode w) with
      | some k => t.responses = s.responses ++ [⟨true, k.rsp⟩]
      | none => ∃ v, t.responses = s.responses ++ [⟨false, v⟩]

/-- R63: every command answers exactly once; a response with `err = 1` carries a code 1 to 4, and a successful `NOP`, `CLR`,
`PUSH` or `FIN` carries 0x0000, a successful `RDF` has `rsp[15:8] = 0`. -/
def Obligations.OneResponsePerCommand : Prop :=
  ∀ (s t : State) (w : CmdWord) (rest : List Input),
    s.inputs = .command w :: rest → step s = .next t →
    t.inputs = rest ∧ ∃ r : Response, t.responses = s.responses ++ [r] ∧
      (r.err = true → 1 ≤ r.rsp.toNat ∧ r.rsp.toNat ≤ 4) ∧
      (r.err = false →
        match decode w with
        | .ok .nop => r.rsp = 0x0000
        | .ok .clr => r.rsp = 0x0000
        | .ok (.push _) => r.rsp = 0x0000
        | .ok .fin => r.rsp = 0x0000
        | .ok (.rdf off) => r.rsp = (s.block.fb.get off.toNat).setWidth 16 ∧ r.rsp.extractLsb' 8 8 = 0
        | .ok .rdck => r.rsp = ~~~s.block.acc
        | .ok .rdst => r.rsp = statusWord s.block
        | .error _ => False)

/-! ## Invariants and whole-machine rules -/

/-- R30: every step keeps the invariant. -/
def Obligations.StepKeepsInvariant : Prop := ∀ s t : State, s.Inv → step s = .next t → t.Inv

/-- R30, R32: the invariant holds after reset. -/
def Obligations.ResetMeetsInvariant : Prop := State.reset.Inv

/-- R8, R144: nothing is stuck; every step from a state with `LEN <= 61` (R30 item 1) completes, with a command, a reset or
nothing from the host. -/
def Obligations.StepAlwaysCompletes : Prop := ∀ s : State, s.block.len.toNat ≤ 61 → ∃ t, step s = .next t

/-- The model's memory form (log entry 8): every step keeps the canonical form and stays inside `0..W-1`, in every state. -/
def Obligations.MemoryFormKept : Prop :=
  ∀ s t : State, s.block.fb.wf → s.block.fb.inside hw → step s = .next t →
    t.block.fb.wf ∧ t.block.fb.inside hw

/-- R20, R25: which commands may change which element of the state; a command that faults may change PHASE and ECODE, and
ECODE only when the block was not yet in FAULT. -/
def Obligations.OnlyNamedCommandsWrite : Prop :=
  ∀ (s t : State) (w : CmdWord) (rest : List Input),
    s.inputs = .command w :: rest → step s = .next t →
    (t.block.acc ≠ s.block.acc → decode w = .ok .clr ∨ ∃ b, decode w = .ok (.push b)) ∧
    (t.block.len ≠ s.block.len → decode w = .ok .clr ∨ ∃ b, decode w = .ok (.push b)) ∧
    (t.block.fb ≠ s.block.fb → decode w = .ok .clr ∨ (s.block.phase = .load ∧
      (decode w = .ok .fin ∨ ∃ b, decode w = .ok (.push b)))) ∧
    (t.block.phase ≠ s.block.phase → decode w = .ok .clr ∨ decode w = .ok .fin ∨
      ∃ v, t.responses = s.responses ++ [⟨true, v⟩]) ∧
    (t.block.ecode ≠ s.block.ecode → decode w = .ok .clr ∨
      (s.block.phase ≠ .fault ∧ ∃ v, t.responses = s.responses ++ [⟨true, v⟩]))

/-- R22, R27: LEN advances by exactly 1 on each successful `PUSH`, becomes 0 on `CLR`, and no other command changes it. -/
def Obligations.LenCountsPushes : Prop :=
  ∀ (s t : State) (w : CmdWord) (rest : List Input),
    s.inputs = .command w :: rest → step s = .next t →
    match decode w with
    | .ok (.push _) =>
      (t.responses = s.responses ++ [⟨false, 0x0000⟩] ∧ t.block.len.toNat = s.block.len.toNat + 1) ∨
      ((∃ v, t.responses = s.responses ++ [⟨true, v⟩]) ∧ t.block.len = s.block.len)
    | .ok .clr => t.block.len = 0
    | _ => t.block.len = s.block.len

/-- R33, R105: a successful `PUSH b` makes `b` the last byte of the pushed payload and leaves the earlier ones. -/
def Obligations.PushExtendsPayload : Prop :=
  ∀ (b : Byte) (s : State), s.block.phase = .load → s.block.len.toNat < 61 →
    ∃ t, exec (.push b) s = .next t ∧ payload t.block = payload s.block ++ [b]

/-- R25, R130: through any run of commands without `CLR` that starts outside FAULT, ECODE holds the code of the first fault,
and 0 if there was none. -/
def Obligations.FirstCauseKept : Prop :=
  ∀ (s : State) (ws : List CmdWord),
    s.Inv → s.block.phase ≠ .fault → 0x100 ∉ ws → s.inputs = ws.map .command →
    ∃ t, Host.Core.run core ws.length s = .next t ∧
      t.block.ecode.code.setWidth 16 =
        match (newResponses s t).find? (fun r => r.err) with
        | some r => r.rsp
        | none => 0

/-- R8: the next state of the block and the response depend on the block and the command alone, not on earlier responses or
later commands. -/
def Obligations.BlockIgnoresHistory : Prop :=
  ∀ (s₁ s₂ t₁ : State) (x : Input) (rest₁ rest₂ : List Input),
    s₁.block = s₂.block → s₁.inputs = x :: rest₁ → s₂.inputs = x :: rest₂ → step s₁ = .next t₁ →
    ∃ t₂, step s₂ = .next t₂ ∧ t₂.block = t₁.block ∧ newResponses s₂ t₂ = newResponses s₁ t₁

/-- R107: nothing of an earlier frame survives `CLR`: from any two states, `CLR` and then the same inputs give the same block
and the same responses. -/
def Obligations.ClrForgetsEarlierFrames : Prop :=
  ∀ (s₁ s₂ : State) (l : List Input),
    s₁.inputs = .command 0x100 :: l → s₂.inputs = .command 0x100 :: l →
    ∃ t₁ t₂, Host.Core.run core (l.length + 1) s₁ = .next t₁ ∧ Host.Core.run core (l.length + 1) s₂ = .next t₂ ∧
      t₁.block = t₂.block ∧ newResponses s₁ t₁ = newResponses s₂ t₂

/-- R50, R155: outside DONE no command's response depends on the contents of the frame buffer. -/
def Obligations.UnfinishedFrameUnreadable : Prop :=
  ∀ (s : State) (fb : Memory) (w : CmdWord) (rest : List Input),
    s.block.phase ≠ .done → s.block.len.toNat ≤ 61 → s.inputs = .command w :: rest →
    ∃ t₁ t₂, step s = .next t₁ ∧ step { s with block := { s.block with fb := fb } } = .next t₂ ∧
      t₂.responses = t₁.responses ∧ t₂.block.phase = t₁.block.phase

/-! ## The checksum -/

/-- R80: one iteration, on natural numbers, in the two forms the rule writes, with its examples. -/
def Obligations.CrcBitValue : Prop :=
  (∀ a : Word, (crcBit hw a).toNat =
    if 0x8000 ≤ a.toNat then ((a.toNat * 2) % 65536) ^^^ 0x1021 else (a.toNat * 2) % 65536) ∧
  (∀ a : Word, crcBit hw a = (a <<< 1) ^^^ (0x1021 * (a.extractLsb' 15 1).setWidth 16)) ∧
  crcBit hw 0x0000 = 0x0000 ∧ crcBit hw 0x4000 = 0x8000 ∧ crcBit hw 0x8000 = 0x1021 ∧ crcBit hw 0xFFFF = 0xEFDF

/-- R81: one byte is XORed once into bits [7:0] and then eight iterations run; the rule's examples. -/
def Obligations.CrcByteValue : Prop :=
  (∀ (a : Word) (b : Byte), crcByte hw a b =
    crcBit hw (crcBit hw (crcBit hw (crcBit hw (crcBit hw (crcBit hw (crcBit hw (crcBit hw
      (a ^^^ b.setWidth 16))))))))) ∧
  (∀ (a : Word) (b : Byte), (a ^^^ b.setWidth 16).extractLsb' 8 8 = a.extractLsb' 8 8 ∧
    (a ^^^ b.setWidth 16).extractLsb' 0 8 = a.extractLsb' 0 8 ^^^ b) ∧
  crcByte hw 0xFFFF 0x03 = 0xE2F0 ∧ crcByte hw 0xFFFF 0x00 = 0xE1F0 ∧ crcByte hw 0x0000 0x01 = 0x0100

/-- R82: the other value of INJECT enters the byte at bits [15:8]; the two values agree on the byte 0x00 and differ on every
other byte. -/
def Obligations.InjectReadingsDiffer : Prop :=
  (∀ (a : Word) (b : Byte), crcByte { hw with inject := .high } a b =
    crcBits hw 8 (a ^^^ (b.setWidth 16 <<< 8))) ∧
  (∀ (a : Word) (b : Byte), crcByte { hw with inject := .high } a b = crcByte hw a b ↔ b = 0x00)

/-- R83: the accumulator after a payload is the left fold from INIT, first byte first. -/
def Obligations.AccumulatorFoldsPayload : Prop :=
  crcAcc hw [] = 0xFFFF ∧ (∀ (p : List Byte) (b : Byte), crcAcc hw (p ++ [b]) = crcByte hw (crcAcc hw p) b)

/-- R84: the checksum is the complement of the accumulator, for a payload of every length. -/
def Obligations.ChecksumIsComplement : Prop :=
  (∀ p : List Byte, checksum hw p = ~~~(crcAcc hw p) ∧ checksum hw p = crcAcc hw p ^^^ 0xFFFF) ∧
  checksum hw [] = 0x0000 ∧
  (∀ p : List Byte, highByte (checksum hw p) = (checksum hw p).extractLsb' 8 8 ∧
    lowByte (checksum hw p) = (checksum hw p).extractLsb' 0 8)

/-- R86 items 1 and 4: the iteration is linear over XOR, and the accumulator of a longer payload goes on from its prefix. -/
def Obligations.IterationIsLinear : Prop :=
  (∀ x y : Word, crcBit hw (x ^^^ y) = crcBit hw x ^^^ crcBit hw y) ∧
  (∀ x y : Word, crcBits hw 8 (x ^^^ y) = crcBits hw 8 x ^^^ crcBits hw 8 y) ∧
  crcBit hw 0 = 0 ∧ (∀ p q : List Byte, crcAcc hw (p ++ q) = q.foldl (crcByte hw) (crcAcc hw p))

/-- R86 item 2: a byte reaches bits [15:8] unchanged, so the last payload byte changes only the high byte of the checksum. -/
def Obligations.LastByteMovesHighByte : Prop :=
  (∀ (a : Word) (b : Byte), crcByte hw a b = crcBits hw 8 a ^^^ (b.setWidth 16 <<< 8)) ∧
  (∀ (p : List Byte) (b : Byte), checksum hw (p ++ [b]) = checksum hw (p ++ [0x00]) ^^^ (b.setWidth 16 <<< 8))

/-- R86 items 3 and 5: values of eight iterations, and the checksum of a payload of one byte. -/
def Obligations.IterationValues : Prop :=
  crcBits hw 8 0x0000 = 0x0000 ∧ crcBits hw 8 0xFFFF = 0xE1F0 ∧ crcBits hw 8 0x0001 = 0x0100 ∧
  crcBits hw 8 0x0100 = 0x1021 ∧ crcBits hw 8 0x8000 = 0x9188 ∧
  ∀ b : Byte, checksum hw [b] = 0x1E0F ^^^ (b.setWidth 16 <<< 8)

/-! ## The frame -/

/-- R100: the frame byte by byte, for every payload that fits. -/
def Obligations.FrameByteByByte : Prop :=
  ∀ p : List Byte, p.length ≤ 61 →
    frame hw p = [0x00] ++ p ++ [(checksum hw p).extractLsb' 8 8, (checksum hw p).extractLsb' 0 8]
      ++ List.replicate (64 - p.length - 3) 0x00 ∧
    ∀ i < 64, (frame hw p)[i]? = some
      (if i = 0 then 0x00
       else if i ≤ p.length then p.getD (i - 1) 0
       else if i = p.length + 1 then (checksum hw p).extractLsb' 8 8
       else if i = p.length + 2 then (checksum hw p).extractLsb' 0 8
       else 0x00)

/-- R102: every valid frame has the fixed width, a zero header and a zero padding. -/
def Obligations.FrameShape : Prop :=
  ∀ p : List Byte, p.length ≤ 61 →
    (frame hw p).length = 64 ∧ (frame hw p)[0]? = some 0x00 ∧
    ∀ i, 64 - (64 - p.length - 3) ≤ i → i < 64 → (frame hw p)[i]? = some 0x00

/-- R101: `build` fails exactly when the payload and the three further bytes exceed the width; the empty payload is
admitted. -/
def Obligations.BuildFailsWhenTooLong : Prop :=
  (∀ p : List Byte, p.length + 3 ≤ 64 → build hw p = some (frame hw p)) ∧
  (∀ p : List Byte, 64 < p.length + 3 → build hw p = none) ∧
  build hw [] = some (List.replicate 64 0x00)

/-- R68: two payloads with one frame, so LEN cannot be read back from the frame. -/
def Obligations.FrameIsNotInjective : Prop :=
  frame hw [0x36, 0x58] = frame hw [0x36, 0x58, 0xEC, 0x65, 0x00, 0x00, 0x00] ∧
  checksum hw [0x36, 0x58] = 0xEC65 ∧ checksum hw [0x36, 0x58, 0xEC, 0x65, 0x00, 0x00, 0x00] = 0x0000

/-! ## Agreement of the operations with the pure functions -/

/-- R9: in every state that meets the invariant, `RDCK` reports the checksum of the pushed payload and, in DONE, `RDF` the
byte of its frame. -/
def Obligations.ReportsAgreeWithFunctions : Prop :=
  (∀ s : State, s.Inv → s.block.phase ≠ .fault →
    exec .rdck s = .next { s with responses := s.responses ++ [⟨false, checksum hw (payload s.block)⟩] }) ∧
  (∀ (s : State) (off : Byte), s.Inv → s.block.phase = .done → off.toNat < 64 →
    exec (.rdf off) s = .next { s with
      responses := s.responses ++ [⟨false, ((frame hw (payload s.block)).getD off.toNat 0).setWidth 16⟩] })

/-- R90: from any state, after `CLR` and the pushes of a payload that fits, with only `NOP`, `RDCK` and `RDST` between them,
ACC, LEN and PHASE are those of the payload and `RDCK` answers its checksum. -/
def Obligations.PushedChecksumAgrees : Prop :=
  ∀ (s : State) (l : List Instr) (rest : List Input),
    s.inputs = commands (.clr :: l) ++ rest → (∀ i ∈ l, isLoading i = true) → (pushedBytes l).length ≤ 61 →
    ∃ t, Host.Core.run core (l.length + 1) s = .next t ∧ t.block.acc = crcAcc hw (pushedBytes l) ∧
      t.block.len.toNat = (pushedBytes l).length ∧ t.block.phase = .load ∧ t.inputs = rest ∧
      exec .rdck t = .next
        { t with responses := t.responses ++ [⟨false, checksum hw (pushedBytes l)⟩] }

/-- R108: the same followed by `FIN` leaves the finished frame, and each `RDF` answers its byte. -/
def Obligations.FinishedFrameAgrees : Prop :=
  ∀ (s : State) (l : List Instr) (rest : List Input),
    s.inputs = commands (.clr :: (l ++ [.fin])) ++ rest → (∀ i ∈ l, isLoading i = true) →
    (pushedBytes l).length ≤ 61 →
    ∃ t, Host.Core.run core (l.length + 2) s = .next t ∧ t.block.phase = .done ∧
      t.block.len.toNat = (pushedBytes l).length ∧ t.block.acc = crcAcc hw (pushedBytes l) ∧ t.inputs = rest ∧
      (∀ i < 64, some (t.block.fb.get i) = (frame hw (pushedBytes l))[i]?) ∧
      ∀ off : Byte, off.toNat < 64 →
        exec (.rdf off) t = .next { t with
          responses := t.responses ++ [⟨false, ((frame hw (pushedBytes l)).getD off.toNat 0).setWidth 16⟩] }

/-- R71: the responses to `CHECKSUM p`, from any state and for a payload of any length. -/
def Obligations.ChecksumMacroResponses : Prop :=
  ∀ (s : State) (p : List Byte) (rest : List Input),
    s.inputs = commands (macroChecksum p) ++ rest →
    (macroChecksum p).length = p.length + 2 ∧
    ∃ t, Host.Core.run core (p.length + 2) s = .next t ∧ t.inputs = rest ∧
      t.responses = s.responses ++
        (if p.length ≤ 61 then List.replicate (p.length + 1) ⟨false, 0x0000⟩ ++ [⟨false, checksum hw p⟩]
         else List.replicate 62 ⟨false, 0x0000⟩ ++ [⟨true, 0x0001⟩]
           ++ List.replicate (p.length - 62) ⟨true, 0x0003⟩ ++ [⟨true, 0x0003⟩])

/-- R72: the responses to `BUILD p` followed by `DUMP`, from any state: the 64 bytes of the frame in order when the payload
fits, and no frame when it does not. -/
def Obligations.BuildAndDumpResponses : Prop :=
  ∀ (s : State) (p : List Byte) (rest : List Input),
    s.inputs = commands (macroBuild p ++ macroDump hw) ++ rest →
    (macroBuild p).length = p.length + 2 ∧ (macroDump hw).length = 64 ∧
    ∃ t, Host.Core.run core (p.length + 2 + 64) s = .next t ∧ t.inputs = rest ∧
      t.responses = s.responses ++
        (if p.length ≤ 61 then
          List.replicate (p.length + 2) ⟨false, 0x0000⟩ ++ (frame hw p).map (fun b => ⟨false, b.setWidth 16⟩)
         else List.replicate 62 ⟨false, 0x0000⟩ ++ [⟨true, 0x0001⟩]
           ++ List.replicate (p.length - 62 + 1) ⟨true, 0x0003⟩ ++ List.replicate 64 ⟨true, 0x0003⟩)

/-- R109, R155: of the run of `BUILD p` and `DUMP`, if every command succeeded the payload fits and what was read is
`build(p)`; a payload too long never gives a run without a fault. -/
def Obligations.NoFaultMeansBuiltFrame : Prop :=
  ∀ (s : State) (p : List Byte) (rest : List Input),
    s.inputs = commands (macroBuild p ++ macroDump hw) ++ rest →
    ∃ t, Host.Core.run core (p.length + 2 + 64) s = .next t ∧
      (allSucceeded (newResponses s t) ↔ p.length ≤ 61) ∧
      (allSucceeded (newResponses s t) →
        build hw p = some (((newResponses s t).drop (p.length + 2)).map (fun r => r.rsp.extractLsb' 0 8)))
end

