-- ==== Sys2Proof/Laws/Memory.lean ====
section
/-! SUPPORT. Laws/Memory.lean: read after write on the frame buffer, and that every memory operation keeps the canonical form
and stays below `W`. -/

namespace Sys2Proof.Machine

variable {m m' : Memory} {a i : Nat} {v : Byte}

/-! ## Reading -/

@[simp] theorem Memory.get_nil (a : Nat) : Memory.get [] a = 0 := rfl

@[simp] theorem Memory.get_cons (k : Nat) (u : Byte) (m : Memory) (a : Nat) :
    Memory.get ((k, u) :: m) a = if k = a then u else Memory.get m a := rfl

/-- An offset that no entry lists reads 0x00. -/
theorem Memory.get_eq_zero_of_unlisted (h : ∀ x ∈ m, x.1 ≠ a) : m.get a = 0 := by
  induction m with
  | nil => rfl
  | cons x rest ih =>
    obtain ⟨k, u⟩ := x
    rw [Memory.get_cons, if_neg (h (k, u) (by simp))]
    exact ih fun y hy => h y (by simp [hy])

/-- In canonical form the read of a listed offset is the listed byte. -/
theorem Memory.get_of_mem (hm : m.wf) (h : (a, v) ∈ m) : m.get a = v := by
  induction m with
  | nil => simp at h
  | cons x rest ih =>
    obtain ⟨k, u⟩ := x
    have hp := List.pairwise_cons.mp hm.1
    rcases List.mem_cons.mp h with h | h
    · cases h; simp
    · have hk : k < a := hp.1 (a, v) h
      rw [Memory.get_cons, if_neg (by omega)]
      exact ih ⟨hp.2, fun y hy => hm.2 y (by simp [hy])⟩ h

/-! ## The two halves of a write -/

theorem Memory.get_erase (m : Memory) (a i : Nat) :
    (m.erase a).get i = if i = a then 0 else m.get i := by
  induction m with
  | nil => simp [Memory.erase]
  | cons x rest ih =>
    obtain ⟨k, u⟩ := x
    by_cases hk : k = a
    · subst hk
      have : Memory.erase ((k, u) :: rest) k = Memory.erase rest k := by simp [Memory.erase]
      rw [this, ih, Memory.get_cons]
      by_cases hi : i = k
      · simp [hi]
      · simp [hi, Ne.symm hi]
    · have : Memory.erase ((k, u) :: rest) a = (k, u) :: Memory.erase rest a := by simp [Memory.erase, hk]
      rw [this, Memory.get_cons, Memory.get_cons, ih]
      by_cases hi : k = i
      · subst hi; simp [hk]
      · simp [hi]

theorem Memory.get_insertCell (h : ∀ x ∈ m, x.1 ≠ a) (i : Nat) :
    (m.insertCell a v).get i = if i = a then v else m.get i := by
  induction m with
  | nil => simp [Memory.insertCell, eq_comm]
  | cons x rest ih =>
    obtain ⟨k, u⟩ := x
    have hk : k ≠ a := h (k, u) (by simp)
    have ih := ih fun y hy => h y (by simp [hy])
    unfold Memory.insertCell
    split
    · simp [eq_comm]
    · rw [Memory.get_cons, ih, Memory.get_cons]
      by_cases hi : k = i
      · subst hi; simp [hk]
      · simp [hi]

theorem Memory.mem_erase {x : Host.Cell} : x ∈ m.erase a ↔ x ∈ m ∧ x.1 ≠ a := by
  simp [Memory.erase]

theorem Memory.mem_insertCell {x : Host.Cell} : x ∈ m.insertCell a v ↔ x = (a, v) ∨ x ∈ m := by
  induction m with
  | nil => simp [Memory.insertCell]
  | cons y rest ih =>
    obtain ⟨k, u⟩ := y
    unfold Memory.insertCell
    split
    · simp
    · simp only [List.mem_cons, ih]; tauto

/-! ## Read after write -/

/-- A write changes what its own offset reads as, and nothing else. -/
@[simp] theorem Memory.get_set (m : Memory) (a i : Nat) (v : Byte) :
    (m.set a v).get i = if i = a then v else m.get i := by
  unfold Memory.set
  split
  · next hv => rw [Memory.get_erase, hv]
  · rw [Memory.get_insertCell fun x hx => (Memory.mem_erase.mp hx).2, Memory.get_erase]
    by_cases hi : i = a <;> simp [hi]

/-! ## The canonical form is kept -/

theorem Memory.wf_nil : Memory.wf [] := ⟨List.Pairwise.nil, by simp⟩

theorem Memory.wf_erase (h : m.wf) (a : Nat) : (m.erase a).wf :=
  ⟨h.1.filter _, fun x hx => h.2 x (Memory.mem_erase.mp hx).1⟩

theorem Memory.wf_insertCell (h : m.wf) (ha : ∀ x ∈ m, x.1 ≠ a) (hv : v ≠ 0) : (m.insertCell a v).wf := by
  induction m with
  | nil => exact ⟨List.pairwise_singleton _ _, by simpa [Memory.insertCell] using hv⟩
  | cons y rest ih =>
    obtain ⟨k, u⟩ := y
    have hp := List.pairwise_cons.mp h.1
    have hk : k ≠ a := ha (k, u) (by simp)
    have hrest : Memory.wf rest := ⟨hp.2, fun x hx => h.2 x (by simp [hx])⟩
    have ih := ih hrest fun x hx => ha x (by simp [hx])
    unfold Memory.insertCell
    split
    · next hlt =>
      refine ⟨List.pairwise_cons.mpr ⟨fun x hx => ?_, h.1⟩, fun x hx => ?_⟩
      · rcases List.mem_cons.mp hx with rfl | hx
        · exact hlt
        · have := hp.1 x hx; simp only at this ⊢; omega
      · rcases List.mem_cons.mp hx with rfl | hx
        · exact hv
        · exact h.2 x hx
    · refine ⟨List.pairwise_cons.mpr ⟨fun x hx => ?_, ih.1⟩, fun x hx => ?_⟩
      · rcases Memory.mem_insertCell.mp hx with rfl | hx
        · simp only; omega
        · exact hp.1 x hx
      · rcases List.mem_cons.mp hx with rfl | hx
        · exact h.2 _ (by simp)
        · exact ih.2 x hx

/-- A write keeps the canonical form. -/
theorem Memory.wf_set (h : m.wf) (a : Nat) (v : Byte) : (m.set a v).wf := by
  unfold Memory.set
  split
  · exact Memory.wf_erase h a
  · next hv => exact Memory.wf_insertCell (Memory.wf_erase h a) (fun x hx => (Memory.mem_erase.mp hx).2) hv

/-- A write below `W` keeps the buffer below `W`. -/
theorem Memory.inside_set {c : Config} (h : m.inside c) (ha : a < c.width) (v : Byte) : (m.set a v).inside c := by
  intro x hx
  unfold Memory.set at hx
  split at hx
  · exact h x (Memory.mem_erase.mp hx).1
  · rcases Memory.mem_insertCell.mp hx with rfl | hx
    · exact ha
    · exact h x (Memory.mem_erase.mp hx).1

/-- Canonical memories that read alike at every offset are equal. -/
theorem Memory.eq_of_get_eq (h : m.wf) (h' : m'.wf) (hg : ∀ i, m.get i = m'.get i) : m = m' := by
  have sub : ∀ {n n' : Memory}, n.wf → n'.wf → (∀ i, n.get i = n'.get i) → ∀ x ∈ n, x ∈ n' := by
    rintro n n' hn hn' hg ⟨k, u⟩ hx
    by_contra hnot
    have hk : n'.get k = u := by rw [← hg k]; exact Memory.get_of_mem hn hx
    by_cases hl : ∃ y ∈ n', y.1 = k
    · obtain ⟨⟨k', u'⟩, hy, rfl⟩ := hl
      have := Memory.get_of_mem hn' hy
      simp only at hk hnot
      rw [hk] at this
      exact hnot (this ▸ hy)
    · have := Memory.get_eq_zero_of_unlisted (m := n') (a := k) (fun y hy e => hl ⟨y, hy, e⟩)
      exact hn.2 _ hx (by simp only; rw [← hk, this])
  have nodup : ∀ {n : Memory}, n.wf → n.Nodup := fun hn =>
    hn.1.imp fun {x y} hxy => fun e => by subst e; exact lt_irrefl _ hxy
  have perm : m.Perm m' := (List.perm_ext_iff_of_nodup (nodup h) (nodup h')).mpr fun x =>
    ⟨sub h h' hg x, sub h' h (fun i => (hg i).symm) x⟩
  exact perm.eq_of_pairwise (fun x y _ _ hxy hyx => absurd hxy (by omega)) h.1 h'.1

/-- The reset memory has the canonical form. -/
theorem reset_memory_wf : State.reset.block.fb.wf := Memory.wf_nil

end Sys2Proof.Machine
end

