-- ==== Sys2Proof/Laws/State.lean ====
section
/-! SUPPORT. Laws/State.lean: one lemma per field per update of the state, so that no later proof unfolds a record update. -/

namespace Sys2Proof.Machine

/-! ## The initial block -/

@[simp] theorem Block.initial_acc (c : Config) : (Block.initial c).acc = c.init := rfl
@[simp] theorem Block.initial_len (c : Config) : (Block.initial c).len = 0 := rfl
@[simp] theorem Block.initial_fb (c : Config) : (Block.initial c).fb = [] := rfl
@[simp] theorem Block.initial_phase (c : Config) : (Block.initial c).phase = .load := rfl
@[simp] theorem Block.initial_ecode (c : Config) : (Block.initial c).ecode = .none := rfl

@[simp] theorem State.reset_block : State.reset.block = Block.initial hw := rfl
@[simp] theorem State.reset_inputs : State.reset.inputs = [] := rfl
@[simp] theorem State.reset_responses : State.reset.responses = [] := rfl

/-! ## `succeed` -/

@[simp] theorem succeed_block (v : Word) (s : State) : (succeed v s).block = s.block := rfl
@[simp] theorem succeed_inputs (v : Word) (s : State) : (succeed v s).inputs = s.inputs := rfl
@[simp] theorem succeed_responses (v : Word) (s : State) :
    (succeed v s).responses = s.responses ++ [⟨false, v⟩] := rfl

/-! ## `raise` -/

@[simp] theorem raise_block (k : Cause) (s : State) : (raise k s).block = s.block.raise k := rfl
@[simp] theorem raise_inputs (k : Cause) (s : State) : (raise k s).inputs = s.inputs := rfl
@[simp] theorem raise_responses (k : Cause) (s : State) :
    (raise k s).responses = s.responses ++ [⟨true, k.rsp⟩] := rfl

/-! ## The values this hardware's parameters take (R4), as equations for simp and not by unfolding -/

@[simp] theorem hw_width : hw.width = 64 := by simp only [hw]
@[simp] theorem hw_maxLen : hw.maxLen = 61 := by simp only [hw, Config.maxLen]
@[simp] theorem hw_init : hw.init = 0xFFFF := by simp only [hw]
@[simp] theorem hw_poly : hw.poly = 0x1021 := by simp only [hw]
@[simp] theorem hw_xorOut : hw.xorOut = 0xFFFF := by simp only [hw]
@[simp] theorem hw_inject : hw.inject = .low := by simp only [hw]
@[simp] theorem hw_iter : hw.iter = 8 := by simp only [hw]
@[simp] theorem hw_hdr : hw.hdr = 0 := by simp only [hw]
@[simp] theorem hw_pad : hw.pad = 0 := by simp only [hw]
@[simp] theorem hw_ckOrder : hw.ckOrder = .highFirst := by simp only [hw]

end Sys2Proof.Machine
end

