-- ==== Sys2Proof/Laws/Ops.lean ====
section
/-! SUPPORT. Laws/Ops.lean: one lemma per shared operation that says everything it can do, to be cited instead of unfolding
it. -/

namespace Sys2Proof.Machine

variable {c : Config} {m m' : Memory} {a n : Nat} {v : Byte}

/-! ## The memory primitives (R45) -/

theorem memRead_of_lt (h : a < c.width) : memRead c m a = .ok (m.get a) := by simp [memRead, h]

theorem memWrite_of_lt (h : a < c.width) : memWrite c m a v = .ok (m.set a v) := by simp [memWrite, h]

/-- Everything a write that completes does. -/
theorem memWrite_ok (h : memWrite c m a v = .ok m') : a < c.width ∧ m' = m.set a v := by
  unfold memWrite at h
  split at h
  · exact ⟨‹_›, by cases h; rfl⟩
  · cases h

/-- A fill below `W` completes. -/
theorem memFill_of_le (h : a + n ≤ c.width) : ∃ m', memFill c v a n m = .ok m' := by
  induction n generalizing a m with
  | zero => exact ⟨m, rfl⟩
  | succ n ih =>
    obtain ⟨m', hm'⟩ := ih (a := a + 1) (m := m.set a v) (by omega)
    exact ⟨m', by simp only [memFill, memWrite_of_lt (show a < c.width by omega), hm']⟩

/-- Everything a fill that completes does: the bytes read, the canonical form and the bound. -/
theorem memFill_ok (h : memFill c v a n m = .ok m') :
    (∀ i, m'.get i = if a ≤ i ∧ i < a + n then v else m.get i) ∧
      (m.wf → m'.wf) ∧ (m.inside c → m'.inside c) := by
  induction n generalizing a m with
  | zero =>
    cases h
    exact ⟨fun i => by rw [if_neg (by omega)], id, id⟩
  | succ n ih =>
    unfold memFill at h
    split at h
    · cases h
    · next m₁ hm₁ =>
      obtain ⟨hlt, rfl⟩ := memWrite_ok hm₁
      obtain ⟨hget, hwf, hin⟩ := ih h
      refine ⟨fun i => ?_, fun w => hwf (Memory.wf_set w a v), fun w => hin (Memory.inside_set w hlt v)⟩
      rw [hget, Memory.get_set]
      by_cases h1 : i = a
      · subst h1; simp
      · by_cases h2 : a + 1 ≤ i ∧ i < a + 1 + n
        · rw [if_pos h2, if_pos (by omega)]
        · rw [if_neg h2, if_neg h1, if_neg (by omega)]

/-! ## The fault mechanism (R130) -/

@[simp] theorem Block.raise_acc (k : Cause) (b : Block) : (b.raise k).acc = b.acc := by
  unfold Block.raise; split <;> rfl

@[simp] theorem Block.raise_len (k : Cause) (b : Block) : (b.raise k).len = b.len := by
  unfold Block.raise; split <;> rfl

@[simp] theorem Block.raise_fb (k : Cause) (b : Block) : (b.raise k).fb = b.fb := by
  unfold Block.raise; split <;> rfl

@[simp] theorem Block.raise_phase (k : Cause) (b : Block) : (b.raise k).phase = .fault := by
  unfold Block.raise; split
  · assumption
  · rfl

theorem Block.raise_of_fault {k : Cause} {b : Block} (h : b.phase = .fault) : b.raise k = b := by
  simp [Block.raise, h]

theorem Block.raise_of_not_fault {k : Cause} {b : Block} (h : b.phase ≠ .fault) :
    b.raise k = { b with ecode := k.ecode, phase := .fault } := by
  simp [Block.raise, h]

/-- A recorded cause is never the value that stands for none (R131). -/
theorem Cause.ecode_ne_none (k : Cause) : k.ecode ≠ .none := by cases k <;> decide

/-! ## The command port -/

@[simp] theorem takeInput_nil {s : State} (h : s.inputs = []) : takeInput s = none := by
  simp [takeInput, h]

theorem takeInput_cons {s : State} {x : Input} {rest : List Input} (h : s.inputs = x :: rest) :
    takeInput s = some (x, { s with inputs := rest }) := by
  simp [takeInput, h]

/-! ## Placing the frame (R103) -/

/-- With the padding beginning at or below `W`, placing the frame completes. -/
theorem placeFrame_of_le {ck : Word} {len : BitVec 8} (h : len.toNat + 3 ≤ c.width) :
    ∃ m', placeFrame c ck len m = .ok m' := by
  have h0 : headerOffset < c.width := by simp only [headerOffset]; omega
  have h1 : payloadEnd len < c.width := by simp only [payloadEnd]; omega
  have h2 : checksumEnd len < c.width := by simp only [checksumEnd]; omega
  obtain ⟨m', hm'⟩ := memFill_of_le (c := c) (v := c.pad) (a := paddingStart len)
    (n := c.width - paddingStart len)
    (m := ((m.set headerOffset c.hdr).set (payloadEnd len) (checksumBytes c ck).1).set (checksumEnd len)
      (checksumBytes c ck).2) (by simp only [paddingStart]; omega)
  refine ⟨m', ?_⟩
  simp only [placeFrame, memWrite_of_lt h0, memWrite_of_lt h1, memWrite_of_lt h2, bind, Except.bind, hm']

/-- Everything placing the frame does when it completes: the padding, the two checksum bytes, the header, every other offset
unchanged, and the form of the memory kept. -/
theorem placeFrame_ok {ck : Word} {len : BitVec 8} (h : placeFrame c ck len m = .ok m') :
    len.toNat + 3 ≤ c.width ∧
      (∀ i, paddingStart len ≤ i → i < c.width → m'.get i = c.pad) ∧
      m'.get (checksumEnd len) = (checksumBytes c ck).2 ∧
      m'.get (payloadEnd len) = (checksumBytes c ck).1 ∧
      m'.get headerOffset = c.hdr ∧
      (∀ i, 1 ≤ i → i ≤ len.toNat → m'.get i = m.get i) ∧
      (∀ i, c.width ≤ i → m'.get i = m.get i) ∧
      (m.wf → m'.wf) ∧ (m.inside c → m'.inside c) := by
  simp only [placeFrame, bind, Except.bind] at h
  split at h
  · cases h
  next m₁ hm₁ =>
  split at h
  · cases h
  next m₂ hm₂ =>
  split at h
  · cases h
  next m₃ hm₃ =>
  obtain ⟨h0, rfl⟩ := memWrite_ok hm₁
  obtain ⟨h1, rfl⟩ := memWrite_ok hm₂
  obtain ⟨h2, rfl⟩ := memWrite_ok hm₃
  obtain ⟨hget, hwf, hin⟩ := memFill_ok h
  have hb : len.toNat + 3 ≤ c.width := by simp only [checksumEnd] at h2; omega
  have e : paddingStart len + (c.width - paddingStart len) = c.width := by simp only [paddingStart]; omega
  rw [e] at hget
  refine ⟨hb, fun i hi hw' => ?_, ?_, ?_, ?_, fun i hi hl => ?_, fun i hi => ?_,
    fun w => hwf (Memory.wf_set (Memory.wf_set (Memory.wf_set w _ _) _ _) _ _),
    fun w => hin (Memory.inside_set (Memory.inside_set (Memory.inside_set w h0 _) h1 _) h2 _)⟩
  · rw [hget, if_pos ⟨hi, hw'⟩]
  all_goals
    simp only [hget, Memory.get_set, paddingStart, checksumEnd, payloadEnd, headerOffset]
    repeat rw [if_neg (by omega)]
  · rw [if_pos trivial]
  · rw [if_pos trivial]
  · rw [if_pos trivial]

end Sys2Proof.Machine
end

