-- ==== Sys2Proof/Laws/Exec.lean ====
section
/-! SUPPORT. Laws/Exec.lean: for each operation, everything it can do when it answers a next state, and the same once for a
command of the host; to be cited instead of unfolding the meanings. -/

namespace Sys2Proof.Machine

variable {s t : State}

/-! ## Each operation -/

theorem execPush_next {b : Byte} (h : execPush b s = .next t) :
    (s.block.phase ≠ .load ∧ t = raise .sequence s) ∨
    (s.block.phase = .load ∧ s.block.len.toNat = hw.maxLen ∧ t = raise .overflow s) ∨
    (s.block.phase = .load ∧ s.block.len.toNat ≠ hw.maxLen ∧ payloadEnd s.block.len < hw.width ∧
      t = succeed 0 { s with block := { s.block with
        acc := crcByte hw s.block.acc b, len := s.block.len + 1
        fb := s.block.fb.set (payloadEnd s.block.len) b } }) := by
  unfold execPush at h
  split at h
  · next hp => cases h; exact .inl ⟨hp, rfl⟩
  · next hp =>
    have hp : s.block.phase = .load := not_not.mp hp
    split at h
    · next hl => cases h; exact .inr (.inl ⟨hp, hl, rfl⟩)
    · next hl =>
      split at h
      · cases h
      · next fb hfb =>
        obtain ⟨hlt, rfl⟩ := memWrite_ok hfb
        cases h
        exact .inr (.inr ⟨hp, hl, hlt, rfl⟩)

theorem execRdck_next (h : execRdck s = .next t) :
    (s.block.phase = .fault ∧ t = raise .sequence s) ∨
    (s.block.phase ≠ .fault ∧ t = succeed (finishChecksum hw s.block.acc) s) := by
  unfold execRdck at h
  split at h
  · next hp => cases h; exact .inl ⟨hp, rfl⟩
  · next hp => cases h; exact .inr ⟨hp, rfl⟩

theorem execFin_next (h : execFin s = .next t) :
    (s.block.phase ≠ .load ∧ t = raise .sequence s) ∨
    (s.block.phase = .load ∧ ∃ fb,
      placeFrame hw (finishChecksum hw s.block.acc) s.block.len s.block.fb = .ok fb ∧
      t = succeed 0 { s with block := { s.block with fb := fb, phase := .done } }) := by
  unfold execFin at h
  split at h
  · next hp => cases h; exact .inl ⟨hp, rfl⟩
  · next hp =>
    split at h
    · cases h
    · next fb hfb => cases h; exact .inr ⟨not_not.mp hp, fb, hfb, rfl⟩

theorem execRdf_next {off : Byte} (h : execRdf off s = .next t) :
    (s.block.phase ≠ .done ∧ t = raise .sequence s) ∨
    (s.block.phase = .done ∧ hw.width ≤ off.toNat ∧ t = raise .range s) ∨
    (s.block.phase = .done ∧ off.toNat < hw.width ∧ t = succeed (zext16 (s.block.fb.get off.toNat)) s) := by
  unfold execRdf absoluteOffset at h
  split at h
  · next hp => cases h; exact .inl ⟨hp, rfl⟩
  · next hp =>
    have hp : s.block.phase = .done := not_not.mp hp
    split at h
    · next hw' => cases h; exact .inr (.inl ⟨hp, hw', rfl⟩)
    · next hw' =>
      rw [memRead_of_lt (by omega)] at h
      cases h
      exact .inr (.inr ⟨hp, by omega, rfl⟩)

/-! ## A command of the host -/

/-- What an operation does when it succeeds, as one relation. -/
def succeedsAs (i : Instr) (s t : State) : Prop :=
  match i with
  | .nop => t = succeed 0 s
  | .clr => t = succeed 0 { s with block := Block.initial hw }
  | .push b => s.block.phase = .load ∧ s.block.len.toNat ≠ hw.maxLen ∧ payloadEnd s.block.len < hw.width ∧
      t = succeed 0 { s with block := { s.block with
        acc := crcByte hw s.block.acc b, len := s.block.len + 1
        fb := s.block.fb.set (payloadEnd s.block.len) b } }
  | .fin => s.block.phase = .load ∧ ∃ fb,
      placeFrame hw (finishChecksum hw s.block.acc) s.block.len s.block.fb = .ok fb ∧
      t = succeed 0 { s with block := { s.block with fb := fb, phase := .done } }
  | .rdf off => s.block.phase = .done ∧ off.toNat < hw.width ∧ t = succeed (zext16 (s.block.fb.get off.toNat)) s
  | .rdck => s.block.phase ≠ .fault ∧ t = succeed (finishChecksum hw s.block.acc) s
  | .rdst => t = succeed (statusWord s.block) s

/-- An operation that answers a next state either raised a cause or succeeded. -/
theorem exec_next_cases {i : Instr} (h : exec i s = .next t) :
    (∃ k, t = raise k s) ∨ succeedsAs i s t := by
  cases i with
  | nop => cases h; exact .inr rfl
  | clr => cases h; exact .inr rfl
  | push b =>
    rcases execPush_next h with ⟨_, rfl⟩ | ⟨_, _, rfl⟩ | h
    · exact .inl ⟨_, rfl⟩
    · exact .inl ⟨_, rfl⟩
    · exact .inr h
  | fin =>
    rcases execFin_next h with ⟨_, rfl⟩ | h
    · exact .inl ⟨_, rfl⟩
    · exact .inr h
  | rdf off =>
    rcases execRdf_next h with ⟨_, rfl⟩ | ⟨_, _, rfl⟩ | h
    · exact .inl ⟨_, rfl⟩
    · exact .inl ⟨_, rfl⟩
    · exact .inr h
  | rdck =>
    rcases execRdck_next h with ⟨_, rfl⟩ | h
    · exact .inl ⟨_, rfl⟩
    · exact .inr h
  | rdst => cases h; exact .inr rfl

/-- Everything a step can do: nothing, a reset, a fault of the block, or an operation that succeeds. -/
theorem step_next_cases (h : step s = .next t) :
    (s.inputs = [] ∧ t = s) ∨
    (∃ x rest, s.inputs = .reset x :: rest ∧ t = { s with block := Block.initial hw, inputs := rest }) ∨
    (∃ w rest, s.inputs = .command w :: rest ∧
      ((∃ k, t = raise k { s with inputs := rest }) ∨
        ∃ i, decode w = .ok i ∧ succeedsAs i { s with inputs := rest } t)) := by
  cases hin : s.inputs with
  | nil =>
    simp only [step, takeInput_nil hin, idle] at h
    cases h
    exact .inl ⟨rfl, rfl⟩
  | cons x rest =>
    simp only [step, takeInput_cons hin] at h
    cases x with
    | reset y => cases h; exact .inr (.inl ⟨y, rest, rfl, rfl⟩)
    | command w =>
      refine .inr (.inr ⟨w, rest, rfl, ?_⟩)
      cases hd : decode w with
      | ok i =>
        simp only [hd] at h
        rcases exec_next_cases h with hk | hok
        · exact .inl hk
        · exact .inr ⟨i, rfl, hok⟩
      | error e =>
        simp only [hd] at h
        cases h
        exact .inl ⟨.illegal, rfl⟩

end Sys2Proof.Machine
end

