-- ==== Sys2Proof/Laws/PerInstr.lean ====
section
/-! SUPPORT. Laws/PerInstr.lean: statements for all instructions, one lemma per constructor. -/

namespace Sys2Proof.Laws

/-- The word of an operation selects the operation's own row of R61: `w & mask = match`. -/
def TableRow.Statement (i : Instr) : Prop := rowSelects (rowOf i) (encode i) = true

theorem TableRow.nop : TableRow.Statement .nop := by unfold TableRow.Statement; decide

theorem TableRow.clr : TableRow.Statement .clr := by unfold TableRow.Statement; decide

theorem TableRow.push (b : Byte) : TableRow.Statement (.push b) := by
  unfold TableRow.Statement; revert b; decide

theorem TableRow.fin : TableRow.Statement .fin := by unfold TableRow.Statement; decide

theorem TableRow.rdf (off : Byte) : TableRow.Statement (.rdf off) := by
  unfold TableRow.Statement; revert off; decide

theorem TableRow.rdck : TableRow.Statement .rdck := by unfold TableRow.Statement; decide

theorem TableRow.rdst : TableRow.Statement .rdst := by unfold TableRow.Statement; decide

end Sys2Proof.Laws
end

