-- ==== Sys2Proof/Tests/Slice0.lean ====
section
/-! SUPPORT. Tests/Slice0.lean: the checks of WellFormed refuse ill-formed terms, the words of the spec decode as it says, the
vectors of 95_test_vectors.md come out, and a witness for the hypotheses of every statement that has some. -/

namespace Sys2Proof.Tests

open Sys2Proof.Machine

/-! ## Ill-formed terms are refused -/

/-- R5: `3 <= W`. -/
theorem test_wf_refuses_width_2 : Config.wf { hw with width := 2 } = false := by decide

/-- R5: `W <= 256`. -/
theorem test_wf_refuses_width_257 : Config.wf { hw with width := 257 } = false := by decide

theorem test_wf_admits_width_3_and_256 :
    Config.wf { hw with width := 3 } = true ∧ Config.wf { hw with width := 256 } = true := by decide

/-- R5: `ITER = 8` is not variable. -/
theorem test_wf_refuses_iter_7 : Config.wf { hw with iter := 7 } = false := by decide

/-- R42: the order of the checksum bytes cannot be switched. -/
theorem test_wf_refuses_low_first : Config.wf { hw with ckOrder := .lowFirst } = false := by decide

/-- R70: an operand lies in `0..255`. -/
theorem test_wf_refuses_operand_256 : sourceOperandWf 256 = false ∧ sourceOperandWf 255 = true := by decide

/-- The memory form: offsets strictly rise, no entry is 0x00. -/
theorem test_memory_wf_refuses : ¬Memory.wf [(2, 1), (1, 1)] ∧ ¬Memory.wf [(1, 0)] := by decide

/-! ## Decoding: words written out from R61, bit by bit -/

theorem test_decode_nop : decode 0b000_00000000 = .ok .nop := by decide
theorem test_decode_clr : decode 0b001_00000000 = .ok .clr := by decide
theorem test_decode_push : decode 0b010_11110000 = .ok (.push 0xF0) := by decide
theorem test_decode_fin : decode 0b011_00000000 = .ok .fin := by decide
theorem test_decode_rdf : decode 0b100_11001000 = .ok (.rdf 200) := by decide
theorem test_decode_rdck : decode 0b101_00000000 = .ok .rdck := by decide
theorem test_decode_rdst : decode 0b110_00000000 = .ok .rdst := by decide

/-- V81, V82, V83: reserved words. -/
theorem test_decode_reserved :
    decode 0x101 = .error .operand ∧ decode 0x7AB = .error .opcode ∧ decode 0x0FF = .error .operand := by decide

theorem test_table_word : decodeTableWord 16 0x2F0 = some (.push 0xF0) ∧ decodeTableWord 16 0xF00 = none := by decide

/-- P2 step 3 of 95_test_vectors.md: `PUSH 0xF0` is 2F0; R70: a comment, a decimal operand. -/
theorem test_assemble_push :
    assembleLine ['P', 'U', 'S', 'H', ' ', '0', 'x', 'F', '0', ' ', ';', 'a'] = some 0x2F0 ∧
    assembleLine ['R', 'D', 'F', ' ', '6', '3'] = some 0x43F := by decide

/-- R70: an operand outside `0..255` and an operand on a mnemonic that takes none are refused. -/
theorem test_assemble_refuses :
    assembleLine ['R', 'D', 'F', ' ', '2', '5', '6'] = none ∧ assembleLine ['C', 'L', 'R', ' ', '0'] = none := by decide

/-! ## The functions: vectors of 95_test_vectors.md sections 2, 3 and 4 -/

/-- V12, V13, V14, V16. -/
theorem test_crcBit : crcBit hw 0x4000 = 0x8000 ∧ crcBit hw 0x7FFF = 0xFFFE ∧ crcBit hw 0x8000 = 0x1021 ∧
    crcBit hw 0x8810 = 0x0001 := by decide

/-- V23, V26c. -/
theorem test_crcByte : crcByte hw 0xE2F0 0xF0 = 0xDD6C ∧ crcByte hw 0x1234 0x56 = 0x5073 := by decide +kernel

/-- V27, V36, V37. -/
theorem test_checksum :
    checksum hw [0x31, 0x32, 0x33, 0x34, 0x35, 0x36, 0x37, 0x38, 0x39] = 0x4E98 ∧ checksum hw [0x12, 0x34] = 0xE483 ∧
    checksum hw [0x03, 0xF0, 0x00] = 0x892F := by decide +kernel

/-- V44, V46: the other value of INJECT, not this hardware. -/
theorem test_checksum_high :
    checksum { hw with inject := .high } [0x03, 0xF0, 0x00] = 0x79F2 ∧
    checksum { hw with inject := .high } [0x31, 0x32, 0x33, 0x34, 0x35, 0x36, 0x37, 0x38, 0x39] = 0xD64E := by
  decide +kernel

/-- V50. -/
theorem test_frame :
    frame hw [0x03, 0xF0, 0x00] = [0x00, 0x03, 0xF0, 0x00, 0x89, 0x2F] ++ List.replicate 58 0x00 := by decide +kernel

/-! ## One step each: vectors of 95_test_vectors.md section 5 -/

/-- A block in LOAD with `n` bytes pushed; ACC is given, FB is blank. -/
def loading (n : BitVec 8) (acc : Word) : Block := { Block.initial hw with len := n, acc := acc }

/-- The block after V65: the frame of `[0x03, 0xF0, 0x00]`. -/
def finished : Block :=
  { acc := 0x76D0, len := 3, fb := [(1, 0x03), (2, 0xF0), (4, 0x89), (5, 0x2F)], phase := .done, ecode := .none }

/-- The block before V65. -/
def threePushed : Block := { finished with fb := [(1, 0x03), (2, 0xF0)], phase := .load }

/-- The block after V64. -/
def overflowed : Block := { loading 61 0x928F with phase := .fault, ecode := .overflow }

/-- The host issuing one word to a block. -/
def issuing (w : CmdWord) (b : Block) : State := { block := b, inputs := [.command w], responses := [] }

/-- The state after the host's only command and its response. -/
def answered (b : Block) (err : Bool) (rsp : Word) : State := { block := b, inputs := [], responses := [⟨err, rsp⟩] }

/-- The state a step answers, to compare it by decide. -/
def nextOf (o : Host.Outcome State Fault Refusal) : Option State :=
  match o with
  | .next t => some t
  | .fault _ => none
  | .refused _ => none

theorem nextOf_eq_some {o : Host.Outcome State Fault Refusal} {t : State} : nextOf o = some t ↔ o = .next t := by
  cases o <;> simp [nextOf]

/-- A step runs the word that `withFetchWord` places, V61. -/
theorem test_withFetchWord : (nextOf (step (State.reset.withFetchWord 16 0x203))).map (·.block.acc) = some 0xE2F0 := by
  decide +kernel

/-- V80. -/
theorem test_nop_in_fault : nextOf (step (issuing 0x000 overflowed)) = some (answered overflowed false 0) := by decide

/-- V79. -/
theorem test_clr_in_fault : nextOf (step (issuing 0x100 overflowed)) = some (answered (Block.initial hw) false 0) := by
  decide

/-- V61. -/
theorem test_push_first :
    nextOf (step (issuing 0x203 (Block.initial hw))) =
      some (answered { Block.initial hw with acc := 0xE2F0, len := 1, fb := [(1, 0x03)] } false 0) := by decide +kernel

/-- V64. -/
theorem test_push_overflow :
    nextOf (step (issuing 0x23D (loading 61 0x928F))) = some (answered overflowed true 1) := by decide

/-- V65. -/
theorem test_fin : nextOf (step (issuing 0x300 threePushed)) = some (answered finished false 0) := by decide +kernel

/-- V67. -/
theorem test_fin_twice :
    nextOf (step (issuing 0x300 finished)) = some (answered { finished with phase := .fault, ecode := .sequence } true 3) := by
  decide

/-- V68. -/
theorem test_rdf : nextOf (step (issuing 0x404 finished)) = some (answered finished false 0x0089) := by decide

/-- V71. -/
theorem test_rdf_range :
    nextOf (step (issuing 0x440 finished)) = some (answered { finished with phase := .fault, ecode := .range } true 4) := by
  decide

/-- V75. -/
theorem test_rdck : nextOf (step (issuing 0x500 finished)) = some (answered finished false 0x892F) := by decide

/-- V76: the first cause stays, the response carries the later code. -/
theorem test_rdck_in_fault : nextOf (step (issuing 0x500 overflowed)) = some (answered overflowed true 3) := by decide

/-- V88. -/
theorem test_rdst : nextOf (step (issuing 0x600 finished)) = some (answered finished false 0x0301) := by decide

/-- V77. -/
theorem test_rdst_in_fault : nextOf (step (issuing 0x600 overflowed)) = some (answered overflowed false 0x3D06) := by
  decide

/-- V81: a reserved word clears nothing. -/
theorem test_reserved :
    nextOf (step (issuing 0x101 finished)) =
      some (answered { finished with phase := .fault, ecode := .illegal } true 2) := by decide

/-- R150: a command in flight at reset gets no response. -/
theorem test_reset_in_flight :
    nextOf (step { issuing 0x000 finished with inputs := [.reset (some 0x404)] }) = some State.reset := by decide

/-! ## Witnesses: every statement's hypotheses can be met -/

theorem finished_inv : Block.Inv hw finished where
  memory_wf := by decide
  memory_inside := by decide
  len_bounded := by decide
  ecode_iff := by decide
  acc_payload := by decide +kernel
  header := by decide
  done_frame := fun _ => by decide +kernel
  load_blank := fun h => absurd h (by decide)
  fault_either := fun h => absurd h (by decide)

theorem threePushed_inv : Block.Inv hw threePushed where
  memory_wf := by decide
  memory_inside := by decide
  len_bounded := by decide
  ecode_iff := by decide
  acc_payload := by decide +kernel
  header := by decide
  done_frame := fun h => absurd h (by decide)
  load_blank := fun _ => by decide +kernel
  fault_either := fun h => absurd h (by decide)

theorem witness_DecodeOfEncode : Instr.wf (.push 0xFF) = true := by decide

theorem witness_EncodeOfDecode : decode 0x4FF = .ok (.rdf 0xFF) := by decide

theorem witness_DecodeFollowsCases :
    (issuing 0x7FF finished).inputs = .command 0x7FF :: [] ∧ (decode 0x7FF).toOption = none := by decide

theorem witness_RowsSelectDecodedWords : rowOf .fin ∈ opcodeRows := by decide

theorem witness_AssemblerNeverReserved :
    assembleLine ['P', 'U', 'S', 'H', ' ', '0', 'x', 'f', 'F'] = some 0x2FF := by decide

theorem witness_StepRunsDecoded :
    (issuing 0x2FF threePushed).inputs = .command 0x2FF :: [] ∧ decode 0x2FF = .ok (.push 0xFF) := by decide

theorem witness_IdleStepChangesNothing : State.reset.inputs = [] := by decide

/-- One word with `op = 111`, and one each side of the data field. -/
theorem witness_ReservedWordRaisesIllegal :
    (issuing 0x700 finished).inputs = .command 0x700 :: [] ∧ (0x700 : CmdWord).extractLsb' 8 3 = 7 ∧
    (0x001 : CmdWord).extractLsb' 8 3 = 0 ∧ (0x001 : CmdWord).extractLsb' 0 8 ≠ 0 ∧
    (0x6FF : CmdWord).extractLsb' 8 3 = 6 ∧ (0x6FF : CmdWord).extractLsb' 0 8 ≠ 0 := by decide

theorem witness_ResetFromAnyState :
    ({ block := finished, inputs := [.reset (some 0x404)], responses := [] } : State).inputs =
      .reset (some 0x404) :: [] := by decide

theorem witness_NopDoesNothing :
    (issuing 0x0FF finished).inputs = .command 0x0FF :: [] ∧ (0x0FF : CmdWord).extractLsb' 8 3 = 0 ∧
    (0x0FF : CmdWord).extractLsb' 0 8 ≠ 0 := by decide

theorem witness_ClrStartsFreshFrame :
    (issuing 0x101 finished).inputs = .command 0x101 :: [] ∧ (0x101 : CmdWord).extractLsb' 8 3 = 1 ∧
    (0x101 : CmdWord).extractLsb' 0 8 ≠ 0 := by decide

/-- The clauses meet at `LEN = 61`: the last `PUSH` that fits has `LEN = 60`. -/
theorem witness_PushAppendsOrFaults :
    finished.phase ≠ .load ∧ ((loading 61 0).phase = .load ∧ (loading 61 0).len.toNat = 61) ∧
    ((loading 60 0).phase = .load ∧ (loading 60 0).len.toNat < 61) := by decide

theorem witness_FinPlacesFrameOrFaults :
    finished.phase ≠ .load ∧ ((loading 61 0).phase = .load ∧ (loading 61 0).len.toNat ≤ 61) ∧
    (threePushed.phase = .load ∧ threePushed.acc = 0x76D0 ∧ threePushed.len = 3) ∧
    ((loading 0 0xFFFF).phase = .load ∧ (loading 0 0xFFFF).acc = 0xFFFF ∧ (loading 0 0xFFFF).len = 0) ∧
    (0x301 : CmdWord).extractLsb' 8 3 = 3 ∧ (0x301 : CmdWord).extractLsb' 0 8 ≠ 0 := by decide

theorem witness_FinPlacesFrameOrFaults_blank :
    (issuing 0x300 threePushed).Inv ∧ (issuing 0x300 threePushed).block.phase = .load :=
  ⟨threePushed_inv, rfl⟩

/-- The clauses meet at offset 64: 63 is read, 64 is out of range. -/
theorem witness_RdfReadsOrFaults :
    threePushed.phase ≠ .done ∧ (finished.phase = .done ∧ 64 ≤ (64 : Byte).toNat) ∧ (63 : Byte).toNat < 64 := by decide

theorem witness_RdfReadsOrFaults_header : (issuing 0x400 finished).Inv ∧ (issuing 0x400 finished).block.phase = .done :=
  ⟨finished_inv, rfl⟩

theorem witness_RdckReadsChecksumOrFaults :
    overflowed.phase = .fault ∧ finished.phase ≠ .fault ∧ (threePushed.phase = .load ∧ threePushed.len.toNat ≤ 61) ∧
    nextOf (exec .fin { issuing 0 threePushed with inputs := [] }) = some (answered finished false 0) := by
  decide +kernel

theorem witness_RdckReadsChecksumOrFaults_reserved :
    (0x501 : CmdWord).extractLsb' 8 3 = 5 ∧ (0x501 : CmdWord).extractLsb' 0 8 ≠ 0 ∧
    (issuing 0x500 threePushed).Inv := ⟨by decide, by decide, threePushed_inv⟩

/-- The block in FAULT meets the hypothesis of the two clauses on the other reads too. -/
theorem witness_RdstReadsStatus :
    (threePushed.len = 3 ∧ threePushed.ecode = .none ∧ threePushed.phase = .load) ∧
    (finished.len = 3 ∧ finished.ecode = .none ∧ finished.phase = .done) ∧
    (overflowed.len = 61 ∧ overflowed.ecode = .overflow ∧ overflowed.phase = .fault) ∧
    (0x6FF : CmdWord).extractLsb' 8 3 = 6 ∧ (0x6FF : CmdWord).extractLsb' 0 8 ≠ 0 := by decide

theorem witness_StatusFields :
    Block.Inv hw finished ∧ finished.len = 3 ∧ finished.ecode = .none ∧ finished.phase = .done :=
  ⟨finished_inv, rfl, rfl, rfl⟩

theorem witness_RaiseRecordsFirstCause : finished.phase ≠ .fault ∧ overflowed.phase = .fault := by decide

/-- A first fault and a later one. -/
theorem witness_FaultsArePrecise :
    nextOf (step (issuing 0x300 finished)) =
        some (answered { finished with phase := .fault, ecode := .sequence } true 3) ∧
    nextOf (step (issuing 0x300 overflowed)) = some (answered overflowed true 3) := by decide

theorem witness_FaultLeftOnlyByClrOrReset :
    overflowed.phase = .fault ∧ (issuing 0x201 overflowed).inputs = .command 0x201 :: [] ∧
    ({ block := overflowed, inputs := [.reset none], responses := [] } : State).inputs = .reset none :: [] := by decide

theorem witness_PhaseTableFollowed :
    (loading 61 0).len.toNat ≤ 61 ∧ (issuing 0x2FF (loading 61 0)).inputs = .command 0x2FF :: [] := by decide

theorem witness_OneResponsePerCommand :
    (issuing 0x404 finished).inputs = .command 0x404 :: [] ∧
    nextOf (step (issuing 0x404 finished)) = some (answered finished false 0x0089) := by decide

theorem witness_StepKeepsInvariant :
    (issuing 0x300 threePushed).Inv ∧ step (issuing 0x404 finished) = .next (answered finished false 0x0089) ∧
      (issuing 0x404 finished).Inv :=
  ⟨threePushed_inv, rfl, finished_inv⟩

theorem witness_StepAlwaysCompletes : (issuing 0x300 (loading 61 0)).block.len.toNat ≤ 61 := by decide

theorem witness_MemoryFormKept :
    finished.fb.wf ∧ finished.fb.inside hw ∧
    nextOf (step (issuing 0x404 finished)) = some (answered finished false 0x0089) := by decide

theorem witness_OnlyNamedCommandsWrite :
    (issuing 0x100 overflowed).inputs = .command 0x100 :: [] ∧
    nextOf (step (issuing 0x100 overflowed)) = some (answered (Block.initial hw) false 0) := by decide

theorem witness_LenCountsPushes :
    (issuing 0x203 (Block.initial hw)).inputs = .command 0x203 :: [] ∧
    (nextOf (step (issuing 0x203 (Block.initial hw)))).isSome = true := by decide +kernel

theorem witness_PushExtendsPayload : (loading 60 0).phase = .load ∧ (loading 60 0).len.toNat < 61 := by decide

theorem witness_FirstCauseKept :
    (issuing 0x7FF threePushed).Inv ∧ threePushed.phase ≠ .fault ∧ 0x100 ∉ [(0x7FF : CmdWord)] ∧
    (issuing 0x7FF threePushed).inputs = [(0x7FF : CmdWord)].map .command :=
  ⟨threePushed_inv, by decide, by decide, rfl⟩

theorem witness_BlockIgnoresHistory :
    (issuing 0x404 finished).block = ({ issuing 0x404 finished with responses := [⟨true, 4⟩] } : State).block ∧
    (issuing 0x404 finished).inputs = .command 0x404 :: [] ∧
    nextOf (step (issuing 0x404 finished)) = some (answered finished false 0x0089) := by decide

theorem witness_ClrForgetsEarlierFrames :
    (issuing 0x100 overflowed).inputs = .command 0x100 :: [] ∧
    (issuing 0x100 finished).inputs = .command 0x100 :: [] := by decide

theorem witness_UnfinishedFrameUnreadable :
    (loading 61 0).phase ≠ .done ∧ (loading 61 0).len.toNat ≤ 61 ∧
    (issuing 0x400 (loading 61 0)).inputs = .command 0x400 :: [] := by decide

/-- The longest payload that fits, and the shortest that does not. -/
theorem witness_FrameByteByByte : (List.replicate 61 (0xFF : Byte)).length ≤ 61 := by decide

theorem witness_FrameShape : (List.replicate 61 (0x00 : Byte)).length ≤ 61 := by decide

theorem witness_BuildFailsWhenTooLong :
    (List.replicate 61 (0xFF : Byte)).length + 3 ≤ 64 ∧ 64 < (List.replicate 62 (0xFF : Byte)).length + 3 := by decide

theorem witness_ReportsAgreeWithFunctions :
    (issuing 0x43F finished).Inv ∧ finished.phase = .done ∧ finished.phase ≠ .fault ∧ (63 : Byte).toNat < 64 :=
  ⟨finished_inv, by decide, by decide, by decide⟩

/-- With `NOP`, `RDCK` and `RDST` between the pushes. -/
theorem witness_PushedChecksumAgrees :
    (∀ i ∈ [Instr.push 3, .nop, .rdck, .push 0xF0, .rdst], isLoading i = true) ∧
    (pushedBytes [Instr.push 3, .nop, .rdck, .push 0xF0, .rdst]).length ≤ 61 ∧
    ({ block := overflowed, inputs := commands [.clr, .push 3, .nop, .rdck, .push 0xF0, .rdst], responses := [] } :
      State).inputs = commands (.clr :: [.push 3, .nop, .rdck, .push 0xF0, .rdst]) ++ [] := by decide

/-- At the limit of 61 bytes. -/
theorem witness_FinishedFrameAgrees :
    (∀ i ∈ List.replicate 61 (Instr.push 0xFF), isLoading i = true) ∧
    (pushedBytes (List.replicate 61 (.push 0xFF))).length ≤ 61 ∧
    ({ block := overflowed, inputs := commands (.clr :: (List.replicate 61 (.push 0xFF) ++ [.fin])), responses := [] } :
      State).inputs = commands (.clr :: (List.replicate 61 (.push 0xFF) ++ [.fin])) ++ [] := by
  decide +kernel

theorem witness_ChecksumMacroResponses :
    ({ block := overflowed, inputs := commands (macroChecksum [0x03]), responses := [] } : State).inputs =
      commands (macroChecksum [0x03]) ++ [] := by decide

theorem witness_BuildAndDumpResponses :
    ({ block := overflowed, inputs := commands (macroBuild [0x03] ++ macroDump hw), responses := [] } : State).inputs =
      commands (macroBuild [0x03] ++ macroDump hw) ++ [] := by simp

theorem witness_NoFaultMeansBuiltFrame :
    ({ block := overflowed, inputs := commands (macroBuild (List.replicate 62 0) ++ macroDump hw), responses := [] } :
      State).inputs = commands (macroBuild (List.replicate 62 0) ++ macroDump hw) ++ [] := by simp

end Sys2Proof.Tests
end

/-! # Equations of the operations and of a step

Laws/Exec.lean says what follows when an operation answers a next state; the equations here go the other way, one per branch:
from the phase, the length and the offset to the next state that the operation answers. -/

namespace Sys2Proof.Machine

section Equations

variable {s : State} {b off : Byte}

/-! ## `PUSH` (R88) -/

theorem exec_push_of_not_load (hp : s.block.phase ≠ .load) : exec (.push b) s = .next (raise .sequence s) :=
  if_pos hp

theorem exec_push_of_full (hp : s.block.phase = .load) (hl : s.block.len.toNat = hw.maxLen) :
    exec (.push b) s = .next (raise .overflow s) := by
  change execPush b s = _
  rw [execPush, if_neg (not_not.mpr hp), if_pos hl]

theorem exec_push_of_room (hp : s.block.phase = .load) (hl : s.block.len.toNat ≠ hw.maxLen)
    (hlt : payloadEnd s.block.len < hw.width) :
    exec (.push b) s = .next (succeed 0 { s with block := { s.block with
      acc := crcByte hw s.block.acc b, len := s.block.len + 1
      fb := s.block.fb.set (payloadEnd s.block.len) b } }) := by
  change execPush b s = _
  rw [execPush, if_neg (not_not.mpr hp), if_neg hl, memWrite_of_lt hlt]

/-! ## `FIN` (R103) -/

theorem exec_fin_of_not_load (hp : s.block.phase ≠ .load) : exec .fin s = .next (raise .sequence s) :=
  if_pos hp

theorem exec_fin_of_placed {fb : Memory} (hp : s.block.phase = .load)
    (hfb : placeFrame hw (finishChecksum hw s.block.acc) s.block.len s.block.fb = .ok fb) :
    exec .fin s = .next (succeed 0 { s with block := { s.block with fb := fb, phase := .done } }) := by
  change execFin s = _
  rw [execFin, if_neg (not_not.mpr hp), hfb]

/-! ## `RDF` (R104) -/

theorem exec_rdf_of_not_done (hp : s.block.phase ≠ .done) : exec (.rdf off) s = .next (raise .sequence s) :=
  if_pos hp

theorem exec_rdf_of_ge (hp : s.block.phase = .done) (ho : hw.width ≤ off.toNat) :
    exec (.rdf off) s = .next (raise .range s) := by
  change execRdf off s = _
  rw [execRdf, absoluteOffset, if_neg (not_not.mpr hp), if_pos ho]

theorem exec_rdf_of_lt (hp : s.block.phase = .done) (ho : off.toNat < hw.width) :
    exec (.rdf off) s = .next (succeed (zext16 (s.block.fb.get off.toNat)) s) := by
  change execRdf off s = _
  rw [execRdf, absoluteOffset, if_neg (not_not.mpr hp), if_neg (not_le.mpr ho), memRead_of_lt ho]

/-! ## `RDCK` (R89) -/

theorem exec_rdck_of_fault (hp : s.block.phase = .fault) : exec .rdck s = .next (raise .sequence s) :=
  if_pos hp

theorem exec_rdck_of_not_fault (hp : s.block.phase ≠ .fault) :
    exec .rdck s = .next (succeed (finishChecksum hw s.block.acc) s) :=
  if_neg hp

/-! ## A step, by the oldest input (R8, R65, R150) -/

theorem step_of_no_input (hin : s.inputs = []) : step s = .next s := by
  rw [step, takeInput_nil hin, idle]

theorem step_of_reset {x : Option CmdWord} {rest : List Input} (hin : s.inputs = .reset x :: rest) :
    step s = .next { s with block := Block.initial hw, inputs := rest } := by
  simp only [step, takeInput_cons hin, applyReset]

theorem step_of_decoded {w : CmdWord} {rest : List Input} {i : Instr} (hin : s.inputs = .command w :: rest)
    (hd : decode w = .ok i) : step s = exec i { s with inputs := rest } := by
  simp only [step, takeInput_cons hin, hd]

theorem step_of_reserved {w : CmdWord} {rest : List Input} {why : Reserved} (hin : s.inputs = .command w :: rest)
    (hd : decode w = .error why) : step s = .next (raise .illegal { s with inputs := rest }) := by
  simp only [step, takeInput_cons hin, hd, reservedWord]

end Equations

/-! # Every operation and every step completes (R8, R144) -/

section Completion

variable {s : State}

theorem exec_push_completes (b : Byte) (hlen : s.block.len.toNat ≤ hw.maxLen) : ∃ t, exec (.push b) s = .next t := by
  by_cases hp : s.block.phase = .load
  · by_cases hl : s.block.len.toNat = hw.maxLen
    · exact ⟨_, exec_push_of_full hp hl⟩
    · have hlt : payloadEnd s.block.len < hw.width := by
        rw [hw_maxLen] at hlen
        rw [payloadEnd, hw_width]
        omega
      exact ⟨_, exec_push_of_room hp hl hlt⟩
  · exact ⟨_, exec_push_of_not_load hp⟩

theorem exec_fin_completes (hlen : s.block.len.toNat ≤ hw.maxLen) : ∃ t, exec .fin s = .next t := by
  by_cases hp : s.block.phase = .load
  · have hfits : s.block.len.toNat + 3 ≤ hw.width := by
      rw [hw_maxLen] at hlen
      rw [hw_width]
      omega
    obtain ⟨fb, hfb⟩ := placeFrame_of_le hfits
    exact ⟨_, exec_fin_of_placed hp hfb⟩
  · exact ⟨_, exec_fin_of_not_load hp⟩

/-- `RDF` needs no bound on LEN: its RANGE check comes before the read. -/
theorem exec_rdf_completes (off : Byte) (s : State) : ∃ t, exec (.rdf off) s = .next t := by
  by_cases hp : s.block.phase = .done
  · rcases le_or_gt hw.width off.toNat with ho | ho
    · exact ⟨_, exec_rdf_of_ge hp ho⟩
    · exact ⟨_, exec_rdf_of_lt hp ho⟩
  · exact ⟨_, exec_rdf_of_not_done hp⟩

theorem exec_rdck_completes (s : State) : ∃ t, exec .rdck s = .next t := by
  by_cases hp : s.block.phase = .fault
  · exact ⟨_, exec_rdck_of_fault hp⟩
  · exact ⟨_, exec_rdck_of_not_fault hp⟩

/-- With LEN within R30 item 1 every operation answers a next state, in every phase. -/
theorem exec_completes (i : Instr) (hlen : s.block.len.toNat ≤ hw.maxLen) : ∃ t, exec i s = .next t := by
  cases i with
  | nop => exact ⟨_, rfl⟩
  | clr => exact ⟨_, rfl⟩
  | push b => exact exec_push_completes b hlen
  | fin => exact exec_fin_completes hlen
  | rdf off => exact exec_rdf_completes off s
  | rdck => exact exec_rdck_completes s
  | rdst => exact ⟨_, rfl⟩

theorem step_completes (hlen : s.block.len.toNat ≤ hw.maxLen) : ∃ t, step s = .next t := by
  cases hin : s.inputs with
  | nil => exact ⟨_, step_of_no_input hin⟩
  | cons x rest =>
    cases x with
    | reset y => exact ⟨_, step_of_reset hin⟩
    | command w =>
      cases hd : decode w with
      | ok i =>
        rw [step_of_decoded hin hd]
        exact exec_completes i hlen
      | error why => exact ⟨_, step_of_reserved hin hd⟩

end Completion

/-! # The block's answer does not depend on the ports (R8)

An answer from `s₁` to `t₁` is carried over to a state `s₂` with the same block: `s₂` takes the block of `t₁` and appends the
responses that `t₁` added, and keeps its own inputs. -/

section Ports

variable {s₁ s₂ t₁ : State}

/-- What `t` answered in `s`, answered in `s'` instead. -/
def carryAnswer (s t s' : State) : State :=
  { s' with block := t.block, responses := s'.responses ++ newResponses s t }

@[simp] theorem carryAnswer_block (s t s' : State) : (carryAnswer s t s').block = t.block := rfl

@[simp] theorem newResponses_succeed (v : Word) (b : Block) (s : State) :
    newResponses s (succeed v { s with block := b }) = [⟨false, v⟩] := List.drop_left

@[simp] theorem newResponses_raise (k : Cause) (s : State) : newResponses s (raise k s) = [⟨true, k.rsp⟩] :=
  List.drop_left

@[simp] theorem newResponses_carryAnswer (s t s' : State) : newResponses s' (carryAnswer s t s') = newResponses s t :=
  List.drop_left

theorem carryAnswer_succeed (v : Word) (b : Block) (s s' : State) :
    carryAnswer s (succeed v { s with block := b }) s' = succeed v { s' with block := b } := by
  rw [carryAnswer, newResponses_succeed]
  rfl

theorem carryAnswer_raise (k : Cause) (hb : s₁.block = s₂.block) :
    carryAnswer s₁ (raise k s₁) s₂ = raise k s₂ := by
  rw [carryAnswer, newResponses_raise, raise_block, hb]
  rfl

/-- A successful operation that leaves the block alone. -/
theorem carryAnswer_succeed_same (v : Word) (hb : s₁.block = s₂.block) :
    carryAnswer s₁ (succeed v s₁) s₂ = succeed v s₂ := by
  rw [show succeed v s₁ = succeed v { s₁ with block := s₂.block } by rw [← hb], carryAnswer_succeed]

/-- Where nothing was answered, only the block is carried over. -/
theorem carryAnswer_of_same_responses (b : Block) (ins : List Input) (s s' : State) :
    carryAnswer s { s with block := b, inputs := ins } s' = { s' with block := b } := by
  rw [carryAnswer, newResponses, List.drop_length, List.append_nil]

/-- Two states with one block: what an operation answers in the one, it answers in the other. -/
theorem exec_carryAnswer {i : Instr} (hb : s₁.block = s₂.block) (h : exec i s₁ = .next t₁) :
    exec i s₂ = .next (carryAnswer s₁ t₁ s₂) := by
  cases i with
  | nop =>
    cases h
    rw [carryAnswer_succeed_same 0 hb]
    rfl
  | clr =>
    cases h
    rw [carryAnswer_succeed]
    rfl
  | push b =>
    rcases execPush_next h with ⟨hp, rfl⟩ | ⟨hp, hl, rfl⟩ | ⟨hp, hl, hlt, rfl⟩
    · rw [carryAnswer_raise _ hb]
      exact exec_push_of_not_load (hb ▸ hp)
    · rw [carryAnswer_raise _ hb]
      exact exec_push_of_full (hb ▸ hp) (hb ▸ hl)
    · rw [carryAnswer_succeed, hb]
      exact exec_push_of_room (hb ▸ hp) (hb ▸ hl) (hb ▸ hlt)
  | fin =>
    rcases execFin_next h with ⟨hp, rfl⟩ | ⟨hp, fb, hfb, rfl⟩
    · rw [carryAnswer_raise _ hb]
      exact exec_fin_of_not_load (hb ▸ hp)
    · rw [carryAnswer_succeed, hb]
      exact exec_fin_of_placed (hb ▸ hp) (hb ▸ hfb)
  | rdf off =>
    rcases execRdf_next h with ⟨hp, rfl⟩ | ⟨hp, ho, rfl⟩ | ⟨hp, ho, rfl⟩
    · rw [carryAnswer_raise _ hb]
      exact exec_rdf_of_not_done (hb ▸ hp)
    · rw [carryAnswer_raise _ hb]
      exact exec_rdf_of_ge (hb ▸ hp) ho
    · rw [carryAnswer_succeed_same _ hb, hb]
      exact exec_rdf_of_lt (hb ▸ hp) ho
  | rdck =>
    rcases execRdck_next h with ⟨hp, rfl⟩ | ⟨hp, rfl⟩
    · rw [carryAnswer_raise _ hb]
      exact exec_rdck_of_fault (hb ▸ hp)
    · rw [carryAnswer_succeed_same _ hb, hb]
      exact exec_rdck_of_not_fault (hb ▸ hp)
  | rdst =>
    cases h
    rw [carryAnswer_succeed_same _ hb, hb]
    rfl

/-- The same for a step, where both hosts do the same thing next. -/
theorem step_carryAnswer {x : Input} {rest₁ rest₂ : List Input} (hb : s₁.block = s₂.block)
    (h₁ : s₁.inputs = x :: rest₁) (h₂ : s₂.inputs = x :: rest₂) (h : step s₁ = .next t₁) :
    step s₂ = .next (carryAnswer s₁ t₁ { s₂ with inputs := rest₂ }) := by
  cases x with
  | reset y =>
    rw [step_of_reset h₁] at h
    cases h
    rw [step_of_reset h₂, carryAnswer_of_same_responses]
  | command w =>
    cases hd : decode w with
    | ok i =>
      rw [step_of_decoded h₁ hd] at h
      rw [step_of_decoded h₂ hd]
      exact exec_carryAnswer (s₁ := { s₁ with inputs := rest₁ }) hb h
    | error why =>
      rw [step_of_reserved h₁ hd] at h
      cases h
      rw [step_of_reserved h₂ hd]
      exact congrArg _ (carryAnswer_raise (s₁ := { s₁ with inputs := rest₁ })
        (s₂ := { s₂ with inputs := rest₂ }) .illegal hb).symm

end Ports

/-! # What the reports say of the pushed payload (R9) -/

section Reports

variable {s : State}

/-- R30 item 5 as `RDCK` reads it: the accumulator stands for the checksum of the pushed payload. -/
theorem finishChecksum_acc_of_inv (hinv : s.Inv) :
    finishChecksum hw s.block.acc = checksum hw (payload s.block) := by
  rw [hinv.acc_payload, checksum]

/-- R30 item 6 as `RDF` reads it: in DONE the buffer's byte is the frame's. -/
theorem get_of_inv_of_done {i : Nat} (hinv : s.Inv) (hp : s.block.phase = .done) (hi : i < hw.width) :
    s.block.fb.get i = (frame hw (payload s.block)).getD i 0 := by
  rw [List.getD_eq_getElem?_getD, ← hinv.done_frame hp i (List.mem_range.mpr hi), Option.getD_some]

end Reports

/-! # The statements of 00_scope.md -/

/-- Settles O28: every branch of every operation answers a next state, and `LEN + 3 <= W` bounds the offsets that `PUSH` and
`FIN` write. -/
theorem stepAlwaysCompletes : Obligations.StepAlwaysCompletes := by
  intro s hlen
  exact step_completes (hlen.trans_eq hw_maxLen.symm)

/-- Settles O34: the answer of the first state carried over to the second is the answer of the second. -/
theorem blockIgnoresHistory : Obligations.BlockIgnoresHistory := by
  intro s₁ s₂ t₁ x rest₁ rest₂ hb h₁ h₂ h
  exact ⟨_, step_carryAnswer hb h₁ h₂ h, carryAnswer_block _ _ _,
    newResponses_carryAnswer s₁ t₁ { s₂ with inputs := rest₂ }⟩

/-- Settles O49, by R30 items 5 and 6. -/
theorem reportsAgreeWithFunctions : Obligations.ReportsAgreeWithFunctions := by
  refine ⟨fun s hinv hp => ?_, fun s off hinv hp hoff => ?_⟩
  · rw [exec_rdck_of_not_fault hp, finishChecksum_acc_of_inv hinv]
    rfl
  · have hlt : off.toNat < hw.width := by rwa [hw_width]
    rw [exec_rdf_of_lt hp hlt, get_of_inv_of_done hinv hp hlt]
    rfl

/-- Settles O7. -/
theorem stepRunsDecoded : Obligations.StepRunsDecoded :=
  fun _ _ _ _ hin hd => step_of_decoded hin hd

/-- Settles O12: R4 by the values of `hw`, R5 by evaluating its check; an opaque number plus one is at least 1. -/
theorem parameterValues : Obligations.ParameterValues :=
  ⟨hw_width, hw_maxLen, hw_init, hw_poly, hw_xorOut, hw_inject, hw_iter, hw_hdr, hw_pad, hw_ckOrder, by decide,
    fun _ => Nat.le_add_left 1 _⟩

end Sys2Proof.Machine

/-! # The payload of a block (R33) -/

namespace Sys2Proof.Machine

section Payload

variable {b b' : Block}

@[simp] theorem length_payload (b : Block) : (payload b).length = b.len.toNat := by simp [payload]

theorem payload_getElem? {k : Nat} (hk : k < b.len.toNat) : (payload b)[k]? = some (b.fb.get (1 + k)) := by
  simp [payload, hk]

/-- The payload reads LEN and the offsets `1..LEN` and nothing else. -/
theorem payload_congr (hlen : b'.len = b.len)
    (hfb : ∀ i, 1 ≤ i → i ≤ b.len.toNat → b'.fb.get i = b.fb.get i) : payload b' = payload b := by
  unfold payload
  rw [hlen]
  refine List.map_congr_left fun k hk => hfb (1 + k) (by omega) ?_
  have := List.mem_range.mp hk
  omega

@[simp] theorem payload_initial (c : Config) : payload (Block.initial c) = [] := rfl

@[simp] theorem payload_raise (k : Cause) (b : Block) : payload (b.raise k) = payload b := by simp [payload]

/-- The block after a successful `PUSH v` (R88). -/
def Block.afterPush (b : Block) (v : Byte) : Block :=
  { b with acc := crcByte hw b.acc v, len := b.len + 1, fb := b.fb.set (payloadEnd b.len) v }

@[simp] theorem Block.afterPush_acc (b : Block) (v : Byte) : (b.afterPush v).acc = crcByte hw b.acc v := rfl
@[simp] theorem Block.afterPush_fb (b : Block) (v : Byte) :
    (b.afterPush v).fb = b.fb.set (payloadEnd b.len) v := rfl
@[simp] theorem Block.afterPush_phase (b : Block) (v : Byte) : (b.afterPush v).phase = b.phase := rfl
@[simp] theorem Block.afterPush_ecode (b : Block) (v : Byte) : (b.afterPush v).ecode = b.ecode := rfl

/-- The write below `W` is what keeps LEN from wrapping. -/
theorem Block.afterPush_len_toNat {v : Byte} (hlt : payloadEnd b.len < hw.width) :
    (b.afterPush v).len.toNat = b.len.toNat + 1 := by
  rw [payloadEnd, hw_width] at hlt
  change (b.len + 1).toNat = _
  rw [BitVec.toNat_add]
  simp
  omega

theorem payload_afterPush {v : Byte} (hlt : payloadEnd b.len < hw.width) :
    payload (b.afterPush v) = payload b ++ [v] := by
  have hlast : (b.afterPush v).fb.get (1 + b.len.toNat) = v := by simp [payloadEnd]
  have hfirst : ∀ k ∈ List.range b.len.toNat, (b.afterPush v).fb.get (1 + k) = b.fb.get (1 + k) := by
    intro k hk
    have := List.mem_range.mp hk
    rw [Block.afterPush_fb, Memory.get_set, payloadEnd, if_neg (by omega)]
  rw [payload, Block.afterPush_len_toNat hlt, List.range_succ, List.map_append, List.map_congr_left hfirst,
    List.map_singleton, hlast, payload]

end Payload

/-! # The bytes of a frame (R100) -/

section FrameBytes

variable {c : Config} {p : List Byte} {i : Nat}

theorem crcAcc_concat (c : Config) (p : List Byte) (v : Byte) : crcAcc c (p ++ [v]) = crcByte c (crcAcc c p) v :=
  List.foldl_concat ..

theorem frame_getElem?_zero (c : Config) (p : List Byte) : (frame c p)[0]? = some c.hdr := rfl

theorem frame_getElem?_of_le_length (h1 : 1 ≤ i) (h2 : i ≤ p.length) : (frame c p)[i]? = p[i - 1]? := by
  obtain ⟨k, rfl⟩ := Nat.exists_eq_add_of_le' h1
  simp [frame, List.getElem?_append, show k < p.length by omega]

theorem frame_getElem?_length_add_one (c : Config) (p : List Byte) :
    (frame c p)[1 + p.length]? = some (checksumBytes c (checksum c p)).1 := by
  simp [frame, Nat.add_comm 1]

theorem frame_getElem?_length_add_two (c : Config) (p : List Byte) :
    (frame c p)[2 + p.length]? = some (checksumBytes c (checksum c p)).2 := by
  simp [frame, Nat.add_comm 2]

theorem frame_getElem?_of_padding (h1 : 3 + p.length ≤ i) (h2 : i < c.width) : (frame c p)[i]? = some c.pad := by
  have hhead : ([c.hdr] ++ p ++ [(checksumBytes c (checksum c p)).1, (checksumBytes c (checksum c p)).2]).length =
      3 + p.length := by simp; omega
  rw [frame, List.getElem?_append_right (hhead ▸ h1), List.getElem?_replicate, hhead, if_pos (by omega)]

/-- What `FIN` places around the payload is the payload's frame (R66, R103). -/
theorem holdsFrame_of_placeFrame {b : Block} {m : Memory}
    (h : placeFrame c (checksum c (payload b)) b.len m = .ok b.fb) : holdsFrame c b := by
  obtain ⟨-, hpad, hlow, hhigh, hhdr, -⟩ := placeFrame_ok h
  intro i hi
  have hi := List.mem_range.mp hi
  have hlen := length_payload b
  rcases Nat.lt_or_ge i (3 + b.len.toNat) with hlt | hge
  · have : i = 0 ∨ (1 ≤ i ∧ i ≤ b.len.toNat) ∨ i = 1 + b.len.toNat ∨ i = 2 + b.len.toNat := by omega
    rcases this with rfl | ⟨h1, h2⟩ | rfl | rfl
    · rw [frame_getElem?_zero]
      exact congrArg some hhdr
    · rw [frame_getElem?_of_le_length h1 (hlen ▸ h2), payload_getElem? (by omega), Nat.add_sub_cancel' h1]
    · rw [← hlen, frame_getElem?_length_add_one, hlen]
      exact congrArg some hhigh
    · rw [← hlen, frame_getElem?_length_add_two, hlen]
      exact congrArg some hlow
  · rw [frame_getElem?_of_padding (hlen ▸ hge) hi]
    exact congrArg some (hpad i hge hi)

end FrameBytes

/-! # Each way to change the block keeps the invariant (R30) -/

section Invariant

variable {b : Block}

theorem Block.initial_inv : Block.Inv hw (Block.initial hw) where
  memory_wf := Memory.wf_nil
  memory_inside := by simp
  len_bounded := by simp
  ecode_iff := by simp
  acc_payload := rfl
  header := hw_hdr.symm
  done_frame := by simp
  load_blank := fun _ _ _ _ => rfl
  fault_either := by simp

/-- Whatever the phase, the buffer holds the frame or is blank above the payload. -/
theorem Block.Inv.holdsFrame_or_blankAbove (h : Block.Inv hw b) : holdsFrame hw b ∨ blankAbove hw b := by
  cases hp : b.phase with
  | load => exact .inr (h.load_blank hp)
  | done => exact .inl (h.done_frame hp)
  | fault => exact h.fault_either hp

theorem holdsFrame_raise {c : Config} {k : Cause} : holdsFrame c (b.raise k) ↔ holdsFrame c b := by
  simp only [holdsFrame, payload_raise, Block.raise_fb]

theorem blankAbove_raise {c : Config} {k : Cause} : blankAbove c (b.raise k) ↔ blankAbove c b := by
  simp only [blankAbove, Block.raise_len, Block.raise_fb]

theorem Block.Inv.raise (h : Block.Inv hw b) (k : Cause) : Block.Inv hw (b.raise k) := by
  by_cases hp : b.phase = .fault
  · rwa [Block.raise_of_fault hp]
  · exact {
      memory_wf := by simpa using h.memory_wf
      memory_inside := by simpa using h.memory_inside
      len_bounded := by simpa using h.len_bounded
      ecode_iff := by simp [Block.raise_of_not_fault hp, Cause.ecode_ne_none]
      acc_payload := by simpa using h.acc_payload
      header := by simpa using h.header
      done_frame := by simp
      load_blank := by simp
      fault_either := fun _ => h.holdsFrame_or_blankAbove.imp holdsFrame_raise.mpr blankAbove_raise.mpr }

theorem Block.Inv.afterPush (h : Block.Inv hw b) (v : Byte) (hp : b.phase = .load)
    (hlt : payloadEnd b.len < hw.width) (hl : b.len.toNat ≠ hw.maxLen) : Block.Inv hw (b.afterPush v) where
  memory_wf := Memory.wf_set h.memory_wf _ _
  memory_inside := Memory.inside_set h.memory_inside hlt v
  len_bounded := by
    rw [Block.afterPush_len_toNat hlt]
    exact Nat.lt_of_le_of_ne h.len_bounded hl
  ecode_iff := h.ecode_iff
  acc_payload := by rw [Block.afterPush_acc, h.acc_payload, payload_afterPush hlt, crcAcc_concat]
  header := by
    rw [Block.afterPush_fb, Memory.get_set, payloadEnd, if_neg (by omega)]
    exact h.header
  done_frame := by simp [hp]
  load_blank := fun _ i hi hlen => by
    rw [Block.afterPush_len_toNat hlt] at hlen
    rw [Block.afterPush_fb, Memory.get_set, payloadEnd, if_neg (by omega)]
    exact h.load_blank hp i hi (by omega)
  fault_either := by simp [hp]

/-- `FIN` leaves the payload where it is, so the frame it places is the frame of the payload after it too. -/
theorem Block.Inv.placed (h : Block.Inv hw b) {fb : Memory} (hp : b.phase = .load)
    (hfb : placeFrame hw (finishChecksum hw b.acc) b.len b.fb = .ok fb) :
    Block.Inv hw { b with fb := fb, phase := .done } := by
  obtain ⟨-, -, -, -, hhdr, hkept, -, hwf, hin⟩ := placeFrame_ok hfb
  have hpay : payload { b with fb := fb, phase := .done } = payload b := payload_congr rfl hkept
  have hacc : b.acc = crcAcc hw (payload { b with fb := fb, phase := .done }) := by rw [hpay, ← h.acc_payload]
  have hck : finishChecksum hw b.acc = checksum hw (payload { b with fb := fb, phase := .done }) :=
    congrArg (finishChecksum hw) hacc
  exact {
    memory_wf := hwf h.memory_wf
    memory_inside := hin h.memory_inside
    len_bounded := h.len_bounded
    ecode_iff := by simp [h.ecode_iff, hp]
    acc_payload := hacc
    header := hhdr
    done_frame := fun _ => holdsFrame_of_placeFrame (hck ▸ hfb)
    load_blank := by simp
    fault_either := by simp }

end Invariant

/-! # A command by the phase table (R31)

Laws/Exec.lean says that a command raises a cause or succeeds; here also which, by `faultOf`. -/

section ByTable

variable {c : Config} {b : Block} {s t : State}

theorem faultOf_push (v : Byte) : faultOf c b (.ok (.push v)) =
    if b.phase ≠ .load then some .sequence else if b.len.toNat = c.maxLen then some .overflow else none := by
  cases hp : b.phase <;> simp [faultOf, hp]

theorem faultOf_fin : faultOf c b (.ok .fin) = if b.phase ≠ .load then some .sequence else none := by
  cases hp : b.phase <;> simp [faultOf, hp]

theorem faultOf_rdf (off : Byte) : faultOf c b (.ok (.rdf off)) =
    if b.phase ≠ .done then some .sequence else if c.width ≤ off.toNat then some .range else none := by
  cases hp : b.phase <;> simp [faultOf, hp]

theorem faultOf_rdck : faultOf c b (.ok .rdck) = if b.phase = .fault then some .sequence else none := by
  cases hp : b.phase <;> simp [faultOf, hp]

theorem phaseAfter_of_faultOf {d : Except Reserved Instr} {k : Cause} (hf : faultOf c b d = some k) :
    phaseAfter c b d = .fault := by
  simp only [phaseAfter, hf]

/-- An operation raises the cause that the table names, and succeeds where the table names none. -/
theorem exec_next_faultOf {i : Instr} (h : exec i s = .next t) :
    (∃ k, faultOf hw s.block (.ok i) = some k ∧ t = raise k s) ∨
    (faultOf hw s.block (.ok i) = none ∧ succeedsAs i s t) := by
  cases i with
  | nop => cases h; exact .inr ⟨rfl, rfl⟩
  | clr => cases h; exact .inr ⟨rfl, rfl⟩
  | push v =>
    rcases execPush_next h with ⟨hp, ht⟩ | ⟨hp, hl, ht⟩ | hok
    · exact .inl ⟨_, by rw [faultOf_push, if_pos hp], ht⟩
    · exact .inl ⟨_, by rw [faultOf_push, if_neg (not_not.mpr hp), if_pos hl], ht⟩
    · have ⟨hp, hl, _⟩ := hok
      exact .inr ⟨by rw [faultOf_push, if_neg (not_not.mpr hp), if_neg hl], hok⟩
  | fin =>
    rcases execFin_next h with ⟨hp, ht⟩ | hok
    · exact .inl ⟨_, by rw [faultOf_fin, if_pos hp], ht⟩
    · exact .inr ⟨by rw [faultOf_fin, if_neg (not_not.mpr hok.1)], hok⟩
  | rdf off =>
    rcases execRdf_next h with ⟨hp, ht⟩ | ⟨hp, ho, ht⟩ | hok
    · exact .inl ⟨_, by rw [faultOf_rdf, if_pos hp], ht⟩
    · exact .inl ⟨_, by rw [faultOf_rdf, if_neg (not_not.mpr hp), if_pos ho], ht⟩
    · have ⟨hp, ho, _⟩ := hok
      exact .inr ⟨by rw [faultOf_rdf, if_neg (not_not.mpr hp), if_neg (not_le.mpr ho)], hok⟩
  | rdck =>
    rcases execRdck_next h with ⟨hp, ht⟩ | hok
    · exact .inl ⟨_, by rw [faultOf_rdck, if_pos hp], ht⟩
    · exact .inr ⟨by rw [faultOf_rdck, if_neg hok.1], hok⟩
  | rdst => cases h; exact .inr ⟨rfl, rfl⟩

/-- The same for a step on a command, reserved words included. -/
theorem step_next_faultOf {w : CmdWord} {rest : List Input} (hin : s.inputs = .command w :: rest)
    (h : step s = .next t) :
    (∃ k, faultOf hw s.block (decode w) = some k ∧ t = raise k { s with inputs := rest }) ∨
    (∃ i, decode w = .ok i ∧ faultOf hw s.block (.ok i) = none ∧ succeedsAs i { s with inputs := rest } t) := by
  cases hd : decode w with
  | ok i =>
    rw [step_of_decoded hin hd] at h
    rcases exec_next_faultOf h with hk | hok
    · exact .inl hk
    · exact .inr ⟨i, rfl, hok⟩
  | error why =>
    rw [step_of_reserved hin hd] at h
    cases h
    exact .inl ⟨.illegal, rfl, rfl⟩

end ByTable

/-! # What a successful operation does, element by element -/

section Success

variable {i : Instr} {s t : State}

/-- The block after a success: only `CLR`, `PUSH` and `FIN` change it. -/
theorem succeedsAs_block (h : succeedsAs i s t) :
    t.block = s.block ∨
    (i = .clr ∧ t.block = Block.initial hw) ∨
    (∃ v, i = .push v ∧ s.block.phase = .load ∧ s.block.len.toNat ≠ hw.maxLen ∧
      payloadEnd s.block.len < hw.width ∧ t.block = s.block.afterPush v) ∨
    (i = .fin ∧ s.block.phase = .load ∧ ∃ fb,
      placeFrame hw (finishChecksum hw s.block.acc) s.block.len s.block.fb = .ok fb ∧
      t.block = { s.block with fb := fb, phase := .done }) := by
  cases i with
  | nop => subst h; exact .inl rfl
  | clr => exact .inr (.inl ⟨rfl, congrArg State.block h⟩)
  | push v =>
    obtain ⟨hp, hl, hlt, ht⟩ := h
    exact .inr (.inr (.inl ⟨v, rfl, hp, hl, hlt, congrArg State.block ht⟩))
  | fin =>
    obtain ⟨hp, fb, hfb, ht⟩ := h
    exact .inr (.inr (.inr ⟨rfl, hp, fb, hfb, congrArg State.block ht⟩))
  | rdf off => obtain ⟨-, -, rfl⟩ := h; exact .inl rfl
  | rdck => obtain ⟨-, rfl⟩ := h; exact .inl rfl
  | rdst => subst h; exact .inl rfl

/-- A success uses the ports as `succeed` does: it leaves the inputs and appends one response with `err = 0`. -/
theorem succeedsAs_ports (h : succeedsAs i s t) :
    t.inputs = s.inputs ∧ ∃ v, t.responses = s.responses ++ [⟨false, v⟩] := by
  cases i with
  | nop => subst h; exact ⟨rfl, _, rfl⟩
  | clr => subst h; exact ⟨rfl, _, rfl⟩
  | push v => obtain ⟨-, -, -, rfl⟩ := h; exact ⟨rfl, _, rfl⟩
  | fin => obtain ⟨-, fb, -, rfl⟩ := h; exact ⟨rfl, _, rfl⟩
  | rdf off => obtain ⟨-, -, rfl⟩ := h; exact ⟨rfl, _, rfl⟩
  | rdck => obtain ⟨-, rfl⟩ := h; exact ⟨rfl, _, rfl⟩
  | rdst => subst h; exact ⟨rfl, _, rfl⟩

theorem succeedsAs_phase (hf : faultOf hw s.block (.ok i) = none) (h : succeedsAs i s t) :
    t.block.phase = phaseAfter hw s.block (.ok i) := by
  simp only [phaseAfter, hf]
  cases i with
  | nop => subst h; rfl
  | clr => subst h; rfl
  | push v => obtain ⟨-, -, -, rfl⟩ := h; rfl
  | fin => obtain ⟨-, fb, -, rfl⟩ := h; rfl
  | rdf off => obtain ⟨-, -, rfl⟩ := h; rfl
  | rdck => obtain ⟨-, rfl⟩ := h; rfl
  | rdst => subst h; rfl

/-- Apart from `CLR`, a success leaves ECODE (R25). -/
theorem succeedsAs_ecode (hi : i ≠ .clr) (h : succeedsAs i s t) : t.block.ecode = s.block.ecode := by
  rcases succeedsAs_block h with hb | ⟨rfl, -⟩ | ⟨v, -, -, -, -, hb⟩ | ⟨-, -, fb, -, hb⟩
  · rw [hb]
  · exact absurd rfl hi
  · rw [hb, Block.afterPush_ecode]
  · rw [hb]

theorem succeedsAs_inv (hinv : s.Inv) (h : succeedsAs i s t) : t.Inv := by
  unfold State.Inv
  rcases succeedsAs_block h with hb | ⟨-, hb⟩ | ⟨v, -, hp, hl, hlt, hb⟩ | ⟨-, hp, fb, hfb, hb⟩
  · rwa [hb]
  · rw [hb]; exact Block.initial_inv
  · rw [hb]; exact hinv.afterPush v hp hlt hl
  · rw [hb]; exact hinv.placed hp hfb

end Success

theorem step_keeps_inv {s t : State} (hinv : s.Inv) (h : step s = .next t) : t.Inv := by
  rcases step_next_cases h with ⟨-, rfl⟩ | ⟨x, rest, -, rfl⟩ | ⟨w, rest, -, ⟨k, rfl⟩ | ⟨i, -, hok⟩⟩
  · exact hinv
  · exact Block.initial_inv
  · exact hinv.raise k
  · exact succeedsAs_inv (s := { s with inputs := rest }) hinv hok

/-! # Runs without `CLR` (R25, R130) -/

section FirstCause

/-- The two fields make up the word (R60). -/
theorem toNat_eq_fields (w : CmdWord) : w.toNat = (opField w).toNat * 256 + (dataField w).toNat := by
  simp only [opField, dataField, BitVec.extractLsb'_toNat, Nat.shiftRight_eq_div_pow]
  omega

theorem withoutOperand_ok {d : Byte} {i j : Instr} (h : withoutOperand d i = .ok j) : d = 0 ∧ j = i := by
  unfold withoutOperand at h
  split at h
  · next hd => cases h; exact ⟨hd, rfl⟩
  · cases h

/-- The data field must be zero, so one word alone is `CLR`. -/
theorem eq_of_decode_clr {w : CmdWord} (h : decode w = .ok .clr) : w = 0x100 := by
  obtain ⟨hop, hdata⟩ : (opField w).toNat = 1 ∧ dataField w = 0 := by
    unfold decode at h
    split at h
    · cases (withoutOperand_ok h).2
    · next hop => exact ⟨hop, (withoutOperand_ok h).1⟩
    · cases h
    · cases (withoutOperand_ok h).2
    · cases h
    · cases (withoutOperand_ok h).2
    · cases (withoutOperand_ok h).2
    · cases h
  apply BitVec.eq_of_toNat_eq
  rw [toNat_eq_fields, hop, hdata]
  rfl

theorem run_core_succ {s t : State} (n : Nat) (h : step s = .next t) :
    Host.Core.run core (n + 1) s = Host.Core.run core n t := by
  have hcore : core.step s = .next t := h
  simp only [Host.Core.run, hcore]

theorem newResponses_of_append {s t : State} {rs : List Response} (h : t.responses = s.responses ++ rs) :
    newResponses s t = rs := by
  rw [newResponses, h, List.drop_left]

/-- The code of the first response with `err = 1`, and 0 if there is none. -/
def firstFaultCode (rs : List Response) : Word :=
  match rs.find? (fun r => r.err) with
  | some r => r.rsp
  | none => 0

@[simp] theorem firstFaultCode_nil : firstFaultCode [] = 0 := rfl
@[simp] theorem firstFaultCode_cons_success (v : Word) (rs : List Response) :
    firstFaultCode (⟨false, v⟩ :: rs) = firstFaultCode rs := rfl
@[simp] theorem firstFaultCode_cons_fault (v : Word) (rs : List Response) :
    firstFaultCode (⟨true, v⟩ :: rs) = v := rfl

/-- What ECODE must hold once `b` has answered `rs` without a `CLR`: the cause it held before, else the first one
of `rs`. -/
def Block.codeAfter (b : Block) (rs : List Response) : Word :=
  if b.ecode = .none then firstFaultCode rs else b.ecode.code.setWidth 16

variable {b : Block} {s t : State} {rs : List Response}

theorem Block.codeAfter_of_none (he : b.ecode = .none) : b.codeAfter rs = firstFaultCode rs := if_pos he

theorem Block.codeAfter_of_ne_none (he : b.ecode ≠ .none) : b.codeAfter rs = b.ecode.code.setWidth 16 := if_neg he

theorem Block.codeAfter_nil (b : Block) : b.codeAfter [] = b.ecode.code.setWidth 16 := by
  by_cases he : b.ecode = .none
  · rw [Block.codeAfter_of_none he, he]
    rfl
  · exact Block.codeAfter_of_ne_none he

theorem Block.codeAfter_raise (hinv : Block.Inv hw b) (k : Cause) :
    (b.raise k).codeAfter rs = b.codeAfter (⟨true, k.rsp⟩ :: rs) := by
  by_cases hp : b.phase = .fault
  · have he : b.ecode ≠ .none := fun he => hinv.ecode_iff.mp he hp
    rw [Block.raise_of_fault hp, Block.codeAfter_of_ne_none he, Block.codeAfter_of_ne_none he]
  · rw [Block.raise_of_not_fault hp, Block.codeAfter_of_ne_none (Cause.ecode_ne_none k),
      Block.codeAfter_of_none (hinv.ecode_iff.mpr hp), firstFaultCode_cons_fault]
    rfl

/-- One command without `CLR` moves its response from what is still to come to what the block records. -/
theorem step_codeAfter {w : CmdWord} {rest : List Input} (hinv : s.Inv) (hne : w ≠ 0x100)
    (hin : s.inputs = .command w :: rest) (h : step s = .next t) :
    t.inputs = rest ∧ ∃ r, t.responses = s.responses ++ [r] ∧
      ∀ rs, t.block.codeAfter rs = s.block.codeAfter (r :: rs) := by
  rcases step_next_faultOf hin h with ⟨k, -, rfl⟩ | ⟨i, hd, -, hok⟩
  · exact ⟨rfl, _, rfl, fun rs => Block.codeAfter_raise hinv k⟩
  · have hi : i ≠ .clr := by rintro rfl; exact hne (eq_of_decode_clr hd)
    obtain ⟨hins, v, hrs⟩ := succeedsAs_ports hok
    refine ⟨hins, _, hrs, fun rs => ?_⟩
    rw [Block.codeAfter, succeedsAs_ecode hi hok, Block.codeAfter, firstFaultCode_cons_success]

theorem run_codeAfter (ws : List CmdWord) (hinv : s.Inv) (hclr : 0x100 ∉ ws) (hin : s.inputs = ws.map .command) :
    ∃ t rs, Host.Core.run core ws.length s = .next t ∧ t.responses = s.responses ++ rs ∧
      t.block.ecode.code.setWidth 16 = s.block.codeAfter rs := by
  induction ws generalizing s with
  | nil => exact ⟨s, [], rfl, (List.append_nil _).symm, (Block.codeAfter_nil _).symm⟩
  | cons w ws ih =>
    obtain ⟨hne, hclr⟩ := not_or.mp (List.mem_cons.not.mp hclr)
    obtain ⟨u, hu⟩ := step_completes hinv.len_bounded
    obtain ⟨huin, r, hur, hcode⟩ := step_codeAfter hinv (Ne.symm hne) hin hu
    obtain ⟨t, rs, ht, htr, hte⟩ := ih (step_keeps_inv hinv hu) hclr huin
    refine ⟨t, r :: rs, (run_core_succ _ hu).trans ht, ?_, hte.trans (hcode rs)⟩
    rw [htr, hur, List.append_assoc, List.singleton_append]

end FirstCause

/-! # The fields of STATUS (R26) -/

section Status

theorem ECode.code_toNat_le (e : ECode) : e.code.toNat ≤ 4 := by cases e <;> decide

theorem Phase.code_ne_three (p : Phase) : p.code ≠ 3 := by cases p <;> decide

theorem Phase.code_eq_two_iff (p : Phase) : p.code = 2 ↔ p = .fault := by cases p <;> decide

/-- The fields of STATUS do not overlap. -/
theorem statusWord_toNat (b : Block) :
    (statusWord b).toNat = b.len.toNat * 256 + b.ecode.code.toNat * 4 + b.phase.code.toNat := by
  have hl := b.len.isLt
  have he := b.ecode.code.isLt
  have hp := b.phase.code.isLt
  have hlow : b.ecode.code.toNat <<< 2 ||| b.phase.code.toNat = b.ecode.code.toNat <<< 2 + b.phase.code.toNat :=
    (Nat.shiftLeft_add_eq_or_of_lt hp _).symm
  have hhigh : b.len.toNat <<< 8 ||| (b.ecode.code.toNat <<< 2 + b.phase.code.toNat) =
      b.len.toNat <<< 8 + (b.ecode.code.toNat <<< 2 + b.phase.code.toNat) :=
    (Nat.shiftLeft_add_eq_or_of_lt (by omega) _).symm
  simp only [statusWord, BitVec.toNat_or, BitVec.toNat_shiftLeft, BitVec.toNat_setWidth]
  rw [Nat.mod_eq_of_lt (a := b.len.toNat) (by omega), Nat.mod_eq_of_lt (a := b.ecode.code.toNat) (by omega),
    Nat.mod_eq_of_lt (a := b.phase.code.toNat) (by omega), Nat.mod_eq_of_lt (by omega),
    Nat.mod_eq_of_lt (by omega), Nat.or_assoc, hlow, hhigh]
  omega

theorem statusWord_extract_toNat (b : Block) (start len : Nat) :
    ((statusWord b).extractLsb' start len).toNat =
      (b.len.toNat * 256 + b.ecode.code.toNat * 4 + b.phase.code.toNat) / 2 ^ start % 2 ^ len := by
  rw [BitVec.extractLsb'_toNat, statusWord_toNat, Nat.shiftRight_eq_div_pow]

theorem statusWord_phase (b : Block) : (statusWord b).extractLsb' 0 2 = b.phase.code := by
  apply BitVec.eq_of_toNat_eq
  rw [statusWord_extract_toNat]
  omega

theorem statusWord_ecode (b : Block) : (statusWord b).extractLsb' 2 3 = b.ecode.code := by
  apply BitVec.eq_of_toNat_eq
  rw [statusWord_extract_toNat]
  omega

theorem statusWord_zero (b : Block) : (statusWord b).extractLsb' 5 3 = 0 := by
  have := b.ecode.code_toNat_le
  apply BitVec.eq_of_toNat_eq
  rw [statusWord_extract_toNat]
  simp
  omega

theorem statusWord_len (b : Block) : (statusWord b).extractLsb' 8 8 = b.len := by
  apply BitVec.eq_of_toNat_eq
  rw [statusWord_extract_toNat]
  omega

end Status

/-! # The statements of 10_state.md -/

/-- Settles O26: a step leaves the block, resets it, raises a cause, pushes or places the frame, and each keeps R30. -/
theorem stepKeepsInvariant : Obligations.StepKeepsInvariant := fun _ _ => step_keeps_inv

/-- Settles O33: outside FAULT the invariant has ECODE at none, so what the run records is the first code it answers. -/
theorem firstCauseKept : Obligations.FirstCauseKept := by
  intro s ws hinv hp hclr hin
  obtain ⟨t, rs, ht, htr, hte⟩ := run_codeAfter ws hinv hclr hin
  refine ⟨t, ht, ?_⟩
  rw [newResponses_of_append htr, hte, Block.codeAfter_of_none (hinv.ecode_iff.mpr hp)]
  rfl

/-- Settles O20, field by field. -/
theorem statusFields : Obligations.StatusFields := by
  refine ⟨fun b => ⟨statusWord_phase b, ?_, statusWord_ecode b, ?_, statusWord_zero b, statusWord_len b, ?_⟩,
    fun p => by cases p <;> rfl, fun b hinv => ?_, fun b hl he hp => ?_⟩
  · rw [statusWord_phase]
    exact b.phase.code_ne_three
  · rw [statusWord_ecode]
    exact b.ecode.code_toNat_le
  · rw [statusWord_phase, Phase.code_eq_two_iff, faultOutput, decide_eq_true_iff]
  · rw [statusWord_len, ← hw_maxLen]
    exact hinv.len_bounded
  · rw [statusWord, hl, he, hp]
    rfl

/-- Settles O24: the step completes, and `faultOf` says whether it raised a cause or succeeded. -/
theorem phaseTableFollowed : Obligations.PhaseTableFollowed := by
  intro s w rest hlen hin
  obtain ⟨t, h⟩ := step_completes (hlen.trans_eq hw_maxLen.symm)
  refine ⟨t, h, ?_⟩
  rcases step_next_faultOf hin h with ⟨k, hf, rfl⟩ | ⟨i, hd, hf, hok⟩
  · rw [phaseAfter_of_faultOf hf, hf]
    exact ⟨Block.raise_phase k _, rfl⟩
  · obtain ⟨-, hrs⟩ := succeedsAs_ports hok
    rw [hd, hf]
    exact ⟨succeedsAs_phase (s := { s with inputs := rest }) hf hok, hrs⟩

/-- Settles O30. -/
theorem onlyNamedCommandsWrite : Obligations.OnlyNamedCommandsWrite := by
  intro s t w rest hin h
  rcases step_next_faultOf hin h with ⟨k, -, rfl⟩ | ⟨i, hd, -, hok⟩
  · exact ⟨fun hne => absurd (Block.raise_acc k _) hne, fun hne => absurd (Block.raise_len k _) hne,
      fun hne => absurd (Block.raise_fb k _) hne, fun _ => .inr (.inr ⟨_, rfl⟩),
      fun hne => .inr ⟨fun hp => hne (congrArg Block.ecode (Block.raise_of_fault hp)), _, rfl⟩⟩
  · rcases succeedsAs_block hok with hb | ⟨rfl, -⟩ | ⟨v, rfl, hp, -, -, hb⟩ | ⟨rfl, hp, fb, -, hb⟩
    · exact ⟨fun hne => absurd (congrArg Block.acc hb) hne, fun hne => absurd (congrArg Block.len hb) hne,
        fun hne => absurd (congrArg Block.fb hb) hne, fun hne => absurd (congrArg Block.phase hb) hne,
        fun hne => absurd (congrArg Block.ecode hb) hne⟩
    · exact ⟨fun _ => .inl hd, fun _ => .inl hd, fun _ => .inl hd, fun _ => .inl hd, fun _ => .inl hd⟩
    · exact ⟨fun _ => .inr ⟨v, hd⟩, fun _ => .inr ⟨v, hd⟩, fun _ => .inr ⟨hp, .inr ⟨v, hd⟩⟩,
        fun hne => absurd (congrArg Block.phase hb) hne, fun hne => absurd (congrArg Block.ecode hb) hne⟩
    · exact ⟨fun hne => absurd (congrArg Block.acc hb) hne, fun hne => absurd (congrArg Block.len hb) hne,
        fun _ => .inr ⟨hp, .inl hd⟩, fun _ => .inr (.inl hd), fun hne => absurd (congrArg Block.ecode hb) hne⟩

/-- Settles O31: a fault keeps LEN, the table has no fault for `CLR`, and a write below `W` keeps LEN from wrapping. -/
theorem lenCountsPushes : Obligations.LenCountsPushes := by
  intro s t w rest hin h
  rcases step_next_faultOf hin h with ⟨k, hf, rfl⟩ | ⟨i, hd, -, hok⟩
  · split
    · exact .inr ⟨⟨_, rfl⟩, Block.raise_len k _⟩
    · next hd => rw [hd] at hf; cases hf
    · exact Block.raise_len k _
  · rw [hd]
    cases i with
    | push v =>
      obtain ⟨-, -, hlt, rfl⟩ := hok
      exact .inl ⟨rfl, Block.afterPush_len_toNat (v := v) hlt⟩
    | clr => subst hok; rfl
    | nop => subst hok; rfl
    | fin => obtain ⟨-, fb, -, rfl⟩ := hok; rfl
    | rdf off => obtain ⟨-, -, rfl⟩ := hok; rfl
    | rdck => obtain ⟨-, rfl⟩ := hok; rfl
    | rdst => subst hok; rfl

/-- Settles O10. -/
theorem resetValues : Obligations.ResetValues :=
  ⟨hw_init, rfl, fun i _ => Memory.get_nil i, rfl, rfl, rfl, rfl, rfl, rfl⟩

/-- Settles O27. -/
theorem resetMeetsInvariant : Obligations.ResetMeetsInvariant := Block.initial_inv

end Sys2Proof.Machine

/-! # The response to a command (R63) -/

namespace Sys2Proof.Machine

section Answer

variable {s t : State} {b : Block} {i : Instr}

/-- The value a successful operation answers; `RDF` alone reads it from the frame buffer. -/
def successValue (b : Block) : Instr → Word
  | .nop => 0
  | .clr => 0
  | .push _ => 0
  | .fin => 0
  | .rdf off => zext16 (b.fb.get off.toNat)
  | .rdck => finishChecksum hw b.acc
  | .rdst => statusWord b

/-- The response of a block to what a command word decodes to. -/
def Block.answer (b : Block) : Except Reserved Instr → Response
  | .error _ => ⟨true, Cause.illegal.rsp⟩
  | .ok i =>
    match faultOf hw b (.ok i) with
    | some k => ⟨true, k.rsp⟩
    | none => ⟨false, successValue b i⟩

theorem Block.answer_of_fault {d : Except Reserved Instr} {k : Cause} (hf : faultOf hw b d = some k) :
    b.answer d = ⟨true, k.rsp⟩ := by
  cases d with
  | error why => cases hf; rfl
  | ok i => simp only [Block.answer, hf]

theorem Block.answer_of_success (hf : faultOf hw b (.ok i) = none) :
    b.answer (.ok i) = ⟨false, successValue b i⟩ := by
  simp only [Block.answer, hf]

theorem succeedsAs_responses (h : succeedsAs i s t) :
    t.responses = s.responses ++ [⟨false, successValue s.block i⟩] := by
  cases i with
  | nop => subst h; rfl
  | clr => subst h; rfl
  | push v => obtain ⟨-, -, -, rfl⟩ := h; rfl
  | fin => obtain ⟨-, fb, -, rfl⟩ := h; rfl
  | rdf off => obtain ⟨-, -, rfl⟩ := h; rfl
  | rdck => obtain ⟨-, rfl⟩ := h; rfl
  | rdst => subst h; rfl

/-- What the host sees of a step on a command, and the next phase, as functions of the block and the word. -/
theorem step_answer {w : CmdWord} {rest : List Input} (hin : s.inputs = .command w :: rest) (h : step s = .next t) :
    t.responses = s.responses ++ [s.block.answer (decode w)] ∧
      t.block.phase = phaseAfter hw s.block (decode w) := by
  rcases step_next_faultOf hin h with ⟨k, hf, rfl⟩ | ⟨i, hd, hf, hok⟩
  · rw [Block.answer_of_fault hf, phaseAfter_of_faultOf hf]
    exact ⟨rfl, Block.raise_phase k _⟩
  · rw [hd, Block.answer_of_success hf]
    exact ⟨succeedsAs_responses (s := { s with inputs := rest }) hok,
      succeedsAs_phase (s := { s with inputs := rest }) hf hok⟩

end Answer

/-! # What does not read the frame buffer (R50, R155) -/

section Unreadable

variable {b : Block}

/-- The table of R31 reads PHASE and LEN alone. -/
theorem faultOf_replace_fb (c : Config) (b : Block) (fb : Memory) (d : Except Reserved Instr) :
    faultOf c { b with fb := fb } d = faultOf c b d := by
  cases d with
  | error why => rfl
  | ok i => cases i <;> rfl

theorem phaseAfter_replace_fb (c : Config) (b : Block) (fb : Memory) (d : Except Reserved Instr) :
    phaseAfter c { b with fb := fb } d = phaseAfter c b d := by
  simp only [phaseAfter, faultOf_replace_fb]

theorem successValue_replace_fb (b : Block) (fb : Memory) {i : Instr} (hi : ∀ off, i ≠ .rdf off) :
    successValue { b with fb := fb } i = successValue b i := by
  cases i with
  | rdf off => exact absurd rfl (hi off)
  | nop | clr | push | fin | rdck | rdst => rfl

/-- `RDF`, the one reader of the buffer, succeeds in DONE only. -/
theorem ne_rdf_of_success {i : Instr} (hp : b.phase ≠ .done) (hf : faultOf hw b (.ok i) = none) (off : Byte) :
    i ≠ .rdf off := by
  rintro rfl
  rw [faultOf_rdf, if_pos hp] at hf
  cases hf

theorem Block.answer_replace_fb (fb : Memory) (hp : b.phase ≠ .done) (d : Except Reserved Instr) :
    Block.answer { b with fb := fb } d = b.answer d := by
  cases d with
  | error why => rfl
  | ok i =>
    have hf' := faultOf_replace_fb hw b fb (.ok i)
    cases hf : faultOf hw b (.ok i) with
    | some k => rw [Block.answer_of_fault hf, Block.answer_of_fault (hf'.trans hf)]
    | none =>
      rw [Block.answer_of_success hf, Block.answer_of_success (hf'.trans hf),
        successValue_replace_fb b fb (ne_rdf_of_success hp hf)]

end Unreadable

/-! # The statements of 20_memory.md -/

/-- Settles O36: both steps complete, and outside DONE neither the response nor the next phase is a function of the buffer. -/
theorem unfinishedFrameUnreadable : Obligations.UnfinishedFrameUnreadable := by
  intro s fb w rest hp hlen hin
  have hlen : s.block.len.toNat ≤ hw.maxLen := hlen.trans_eq hw_maxLen.symm
  obtain ⟨t₁, h₁⟩ := step_completes hlen
  obtain ⟨t₂, h₂⟩ := step_completes (s := { s with block := { s.block with fb := fb } }) hlen
  obtain ⟨hr₁, hp₁⟩ := step_answer hin h₁
  obtain ⟨hr₂, hp₂⟩ := step_answer (s := { s with block := { s.block with fb := fb } }) hin h₂
  refine ⟨t₁, t₂, h₁, h₂, ?_, ?_⟩
  · rw [hr₁, hr₂, Block.answer_replace_fb fb hp]
  · rw [hp₁, hp₂, phaseAfter_replace_fb]

end Sys2Proof.Machine

/-! # The word of an operation and what it decodes to (R60, R61, R65) -/

namespace Sys2Proof.Machine

section Fields

variable {w : CmdWord} {d : Byte} {i j : Instr}

/-- The fields stand side by side in the word, `op` above `data` (R60). -/
theorem commandWord_toNat (op : BitVec 3) (d : Byte) : (commandWord op d).toNat = op.toNat * 256 + d.toNat := by
  have hop := op.isLt
  have hd := d.isLt
  rw [commandWord, BitVec.toNat_or, BitVec.toNat_shiftLeft, BitVec.toNat_setWidth, BitVec.toNat_setWidth,
    Nat.mod_eq_of_lt (a := op.toNat) (by omega), Nat.mod_eq_of_lt (a := d.toNat) (by omega),
    Nat.shiftLeft_eq, Nat.mod_eq_of_lt (by omega), ← Nat.shiftLeft_eq, ← Nat.shiftLeft_add_eq_or_of_lt hd,
    Nat.shiftLeft_eq]

@[simp] theorem opField_commandWord (op : BitVec 3) (d : Byte) : opField (commandWord op d) = op := by
  have hop := op.isLt
  have hd := d.isLt
  apply BitVec.eq_of_toNat_eq
  rw [opField, BitVec.extractLsb'_toNat, commandWord_toNat, Nat.shiftRight_eq_div_pow]
  omega

@[simp] theorem dataField_commandWord (op : BitVec 3) (d : Byte) : dataField (commandWord op d) = d := by
  have hd := d.isLt
  apply BitVec.eq_of_toNat_eq
  rw [dataField, BitVec.extractLsb'_toNat, commandWord_toNat, Nat.shiftRight_zero]
  omega

theorem commandWord_fields (w : CmdWord) : commandWord (opField w) (dataField w) = w := by
  apply BitVec.eq_of_toNat_eq
  rw [commandWord_toNat, toNat_eq_fields w]

theorem decode_encode (i : Instr) : decode (encode i) = .ok i := by
  cases i with
  | push b => simp [encode, decode]
  | rdf off => simp [encode, decode]
  | nop | clr | fin | rdck | rdst => rfl

/-- A word by its fields, with the opcode as the number that the decoder compares. -/
theorem commandWord_of_fields {n : Nat} (hop : (opField w).toNat = n) (hd : dataField w = d) :
    commandWord (BitVec.ofNat 3 n) d = w := by
  rw [← commandWord_fields w, hd, ← hop, BitVec.ofNat_toNat, BitVec.setWidth_eq]

/-- An operation without operand is accepted with a zero data field only, so its word is determined by the opcode. -/
theorem encode_of_withoutOperand {n : Nat} (hop : (opField w).toNat = n)
    (hj : encode j = commandWord (BitVec.ofNat 3 n) 0) (h : withoutOperand (dataField w) j = .ok i) :
    encode i = w := by
  obtain ⟨hd, rfl⟩ := withoutOperand_ok h
  rw [hj, commandWord_of_fields hop hd]

theorem encode_of_decode (h : decode w = .ok i) : encode i = w := by
  unfold decode at h
  split at h
  · next hop => exact encode_of_withoutOperand hop rfl h
  · next hop => exact encode_of_withoutOperand hop rfl h
  · next hop => cases h; exact commandWord_of_fields hop rfl
  · next hop => exact encode_of_withoutOperand hop rfl h
  · next hop => cases h; exact commandWord_of_fields hop rfl
  · next hop => exact encode_of_withoutOperand hop rfl h
  · next hop => exact encode_of_withoutOperand hop rfl h
  · cases h

theorem decode_eq_ok_iff : decode w = .ok i ↔ encode i = w :=
  ⟨encode_of_decode, fun h => h ▸ decode_encode i⟩

theorem encode_injective : Function.Injective encode := fun i j h => by
  have hj : decode (encode i) = .ok j := h ▸ decode_encode j
  exact Except.ok.inj ((decode_encode i).symm.trans hj)

end Fields

/-! # The rows of the table (R61) -/

section Rows

variable {w : CmdWord} {i : Instr} {r : OpcodeRow}

theorem opField_and (w w' : CmdWord) : opField (w &&& w') = opField w &&& opField w' := BitVec.extractLsb'_and

theorem encode_and_mask (i : Instr) : encode i &&& (rowOf i).mask = (rowOf i).pattern := by
  apply beq_iff_eq.mp
  cases i with
  | nop => exact Laws.TableRow.nop
  | clr => exact Laws.TableRow.clr
  | push b => exact Laws.TableRow.push b
  | fin => exact Laws.TableRow.fin
  | rdf off => exact Laws.TableRow.rdf off
  | rdck => exact Laws.TableRow.rdck
  | rdst => exact Laws.TableRow.rdst

/-- Where the mask covers the whole word, the row is selected by the operation's own word alone. -/
theorem encode_eq_of_full_mask (hmask : (rowOf i).mask = 0x7FF) (h : w &&& (rowOf i).mask = (rowOf i).pattern) :
    encode i = w := by
  rw [← encode_and_mask i, hmask] at h
  calc encode i = encode i &&& 0x7FF := BitVec.and_allOnes.symm
    _ = w &&& 0x7FF := h.symm
    _ = w := BitVec.and_allOnes

/-- Every mask covers the opcode. -/
theorem opField_eq_of_selects (h : w &&& (rowOf i).mask = (rowOf i).pattern) : opField w = opField (encode i) := by
  have hmask : opField (rowOf i).mask = BitVec.allOnes 3 := by
    cases i <;> simp only [rowOf] <;> rfl
  have hop := congrArg opField (h.trans (encode_and_mask i).symm)
  simpa only [opField_and, hmask, BitVec.and_allOnes] using hop

/-- A row of an operation with an operand leaves the operand free. -/
theorem commandWord_of_selects {op : BitVec 3} {d : Byte} (hi : encode i = commandWord op d)
    (h : w &&& (rowOf i).mask = (rowOf i).pattern) : commandWord op (dataField w) = w := by
  have hop : opField w = op := by rw [opField_eq_of_selects h, hi, opField_commandWord]
  rw [← hop, commandWord_fields]

theorem selects_rowOf_iff (i : Instr) (w : CmdWord) :
    w &&& (rowOf i).mask = (rowOf i).pattern ↔ ∃ j, decode w = .ok j ∧ rowOf j = rowOf i := by
  constructor
  · intro h
    cases i with
    | push b =>
      exact ⟨.push (dataField w), decode_eq_ok_iff.mpr (commandWord_of_selects rfl h), rfl⟩
    | rdf off =>
      exact ⟨.rdf (dataField w), decode_eq_ok_iff.mpr (commandWord_of_selects rfl h), rfl⟩
    | nop | clr | fin | rdck | rdst => exact ⟨_, decode_eq_ok_iff.mpr (encode_eq_of_full_mask rfl h), rfl⟩
  · rintro ⟨j, hd, hrow⟩
    rw [← hrow, ← encode_of_decode hd]
    exact encode_and_mask j

theorem exists_rowOf_of_mem (h : r ∈ opcodeRows) : ∃ i, rowOf i = r := by
  have hrows : opcodeRows = [Instr.nop, .clr, .push 0, .fin, .rdf 0, .rdck, .rdst].map rowOf := rfl
  rw [hrows] at h
  obtain ⟨i, -, hi⟩ := List.mem_map.mp h
  exact ⟨i, hi⟩

theorem selects_iff_decodes (h : r ∈ opcodeRows) (w : CmdWord) :
    w &&& r.mask = r.pattern ↔ ∃ i, decode w = .ok i ∧ rowOf i = r := by
  obtain ⟨i, rfl⟩ := exists_rowOf_of_mem h
  exact selects_rowOf_iff i w

/-- A word decodes to one operation, and an operation has one row. -/
theorem eq_of_selects {r' : OpcodeRow} (h : r ∈ opcodeRows) (h' : r' ∈ opcodeRows) (hs : w &&& r.mask = r.pattern)
    (hs' : w &&& r'.mask = r'.pattern) : r = r' := by
  obtain ⟨i, hi, rfl⟩ := (selects_iff_decodes h w).mp hs
  obtain ⟨j, hj, rfl⟩ := (selects_iff_decodes h' w).mp hs'
  rw [Except.ok.inj (hi.symm.trans hj)]

end Rows

/-! ## How many words decode (R61) -/

section Count

/-- Every operand byte, once. -/
def allBytes : List Byte := (List.range 256).map (BitVec.ofNat 8)

/-- Every operation with every operand, once. -/
def allInstrs : List Instr :=
  [.nop, .clr, .fin, .rdck, .rdst] ++ allBytes.map .push ++ allBytes.map .rdf

theorem mem_allBytes (b : Byte) : b ∈ allBytes :=
  List.mem_map.mpr ⟨b.toNat, List.mem_range.mpr b.isLt, by simp⟩

theorem nodup_allBytes : allBytes.Nodup := by
  refine List.Nodup.map_on (fun m hm n hn h => ?_) List.nodup_range
  have := congrArg BitVec.toNat h
  rwa [BitVec.toNat_ofNat, BitVec.toNat_ofNat, Nat.mod_eq_of_lt (List.mem_range.mp hm),
    Nat.mod_eq_of_lt (List.mem_range.mp hn)] at this

theorem mem_allInstrs (i : Instr) : i ∈ allInstrs := by
  cases i <;> simp [allInstrs, mem_allBytes]

theorem nodup_allInstrs : allInstrs.Nodup := by
  have hpush : (allBytes.map Instr.push).Nodup := nodup_allBytes.map fun _ _ => Instr.push.inj
  have hrdf : (allBytes.map Instr.rdf).Nodup := nodup_allBytes.map fun _ _ => Instr.rdf.inj
  refine (List.Nodup.append (by decide) hpush ?_).append hrdf ?_ <;> simp [List.disjoint_left]

theorem length_allInstrs : allInstrs.length = 517 := by simp [allInstrs, allBytes]

/-- Below 2048 the numbers that decode are the words of the operations. -/
theorem decoding_perm_words :
    ((List.range 2048).filter fun n => (decode (BitVec.ofNat 11 n)).isOk).Perm
      (allInstrs.map fun i => (encode i).toNat) := by
  have hwords : (allInstrs.map fun i => (encode i).toNat).Nodup :=
    nodup_allInstrs.map fun _ _ h => encode_injective (BitVec.eq_of_toNat_eq h)
  refine (List.perm_ext_iff_of_nodup (List.nodup_range.filter _) hwords).mpr fun n => ?_
  rw [List.mem_filter, List.mem_range, List.mem_map]
  constructor
  · rintro ⟨hn, hok⟩
    cases hd : decode (BitVec.ofNat 11 n) with
    | ok i =>
      refine ⟨i, mem_allInstrs i, ?_⟩
      rw [encode_of_decode hd, BitVec.toNat_ofNat, Nat.mod_eq_of_lt hn]
    | error why =>
      rw [hd] at hok
      cases hok
  · rintro ⟨i, -, rfl⟩
    rw [BitVec.ofNat_toNat, BitVec.setWidth_eq, decode_encode]
    exact ⟨(encode i).isLt, rfl⟩

end Count

/-! # The decoder by its cases (R65) -/

section Cases

theorem withoutOperand_toOption (d : Byte) (i : Instr) :
    (withoutOperand d i).toOption = if d = 0 then some i else none := by
  unfold withoutOperand
  split <;> rfl

theorem opcode_cases (op : BitVec 3) :
    op = 0 ∨ op = 1 ∨ op = 2 ∨ op = 3 ∨ op = 4 ∨ op = 5 ∨ op = 6 ∨ op = 7 := by
  revert op
  decide

theorem decode_toOption (w : CmdWord) : (decode w).toOption =
    if opField w = 0 ∧ dataField w = 0 then some .nop
    else if opField w = 1 ∧ dataField w = 0 then some .clr
    else if opField w = 2 then some (.push (dataField w))
    else if opField w = 3 ∧ dataField w = 0 then some .fin
    else if opField w = 4 then some (.rdf (dataField w))
    else if opField w = 5 ∧ dataField w = 0 then some .rdck
    else if opField w = 6 ∧ dataField w = 0 then some .rdst
    else none := by
  rw [decode]
  rcases opcode_cases (opField w) with h | h | h | h | h | h | h | h <;>
    simp [h, withoutOperand_toOption] <;> rfl

end Cases

/-! # The assembler (R70) -/

theorem assembleLine_eq_some {line : List Char} {w : CmdWord} (h : assembleLine line = some w) :
    ∃ i, parseLine line = some i ∧ encode i = w := by
  unfold assembleLine at h
  split at h
  · cases h
  · next i hi => cases h; exact ⟨i, hi, rfl⟩

/-! # One response, as the response table gives it (R63) -/

section ResponseTable

theorem Cause.rsp_bounds (k : Cause) : 1 ≤ k.rsp.toNat ∧ k.rsp.toNat ≤ 4 := by cases k <;> decide

/-- With this hardware's XOROUT the checksum is the complement of the accumulator (R84). -/
theorem finishChecksum_hw (a : Word) : finishChecksum hw a = ~~~a := by
  rw [finishChecksum, hw_xorOut]
  exact BitVec.xor_allOnes

theorem highByte_zext16 (v : Byte) : highByte (zext16 v) = 0 := by
  have := v.isLt
  apply BitVec.eq_of_toNat_eq
  rw [highByte, zext16, BitVec.extractLsb'_toNat, BitVec.toNat_setWidth, Nat.mod_eq_of_lt (a := v.toNat) (by omega),
    Nat.shiftRight_eq_div_pow, Nat.div_eq_of_lt v.isLt]
  rfl

theorem Block.answer_cases (b : Block) (d : Except Reserved Instr) :
    (∃ k : Cause, b.answer d = ⟨true, k.rsp⟩) ∨ ∃ i, d = .ok i ∧ b.answer d = ⟨false, successValue b i⟩ := by
  cases hf : faultOf hw b d with
  | some k => exact .inl ⟨k, Block.answer_of_fault hf⟩
  | none =>
    cases d with
    | error why => cases hf
    | ok i => exact .inr ⟨i, rfl, Block.answer_of_success hf⟩

theorem step_inputs {s t : State} {w : CmdWord} {rest : List Input} (hin : s.inputs = .command w :: rest)
    (h : step s = .next t) : t.inputs = rest := by
  rcases step_next_faultOf hin h with ⟨k, -, rfl⟩ | ⟨i, -, -, hok⟩
  · rfl
  · exact (succeedsAs_ports hok).1

end ResponseTable

/-! # Runs of operations

The responses to a list of operations depend on the block alone, so a run is stated of blocks, and runs compose along the
list. -/

section Runs

variable {b b' b'' : Block} {l l' : List Instr} {rs rs' : List Response} {i : Instr} {r : Response}

/-- The operations, issued one after the other to the first block, leave the second and are answered by the responses. -/
inductive Block.Runs : Block → List Instr → Block → List Response → Prop where
  | nil (b : Block) : Block.Runs b [] b []
  | cons {b b' b'' : Block} {i : Instr} {l : List Instr} {r : Response} {rs : List Response}
      (hi : ∀ rest old, exec i ⟨b, rest, old⟩ = .next ⟨b', rest, old ++ [r]⟩) (h : Block.Runs b' l b'' rs) :
      Block.Runs b (i :: l) b'' (r :: rs)

theorem Block.Runs.single (hi : ∀ rest old, exec i ⟨b, rest, old⟩ = .next ⟨b', rest, old ++ [r]⟩) :
    b.Runs [i] b' [r] :=
  .cons hi (.nil b')

theorem Block.Runs.append (h : b.Runs l b' rs) (h' : b'.Runs l' b'' rs') : b.Runs (l ++ l') b'' (rs ++ rs') := by
  induction h with
  | nil b => exact h'
  | cons hi _ ih => exact .cons hi (ih h')

/-- Operations that each leave the block as it was. -/
theorem Block.Runs.map {α : Type} {f : α → Instr} {g : α → Response} {xs : List α}
    (h : ∀ x ∈ xs, b.Runs [f x] b [g x]) : b.Runs (xs.map f) b (xs.map g) := by
  induction xs with
  | nil => exact .nil b
  | cons x xs ih =>
    exact (h x List.mem_cons_self).append (ih fun y hy => h y (List.mem_cons_of_mem x hy))

/-- What a run of the block says of the machine, whatever the host does afterwards. -/
theorem Block.Runs.run_core {s : State} {rest : List Input} (h : s.block.Runs l b' rs)
    (hin : s.inputs = commands l ++ rest) :
    Host.Core.run core l.length s = .next ⟨b', rest, s.responses ++ rs⟩ := by
  obtain ⟨b, ins, old⟩ := s
  change b.Runs l b' rs at h
  subst hin
  induction h generalizing old with
  | nil b => rw [List.append_nil]; rfl
  | @cons b b' b'' i l r rs hi _ ih =>
    have hstep : step ⟨b, commands (i :: l) ++ rest, old⟩ = .next ⟨b', commands l ++ rest, old ++ [r]⟩ :=
      (step_of_decoded rfl (decode_encode i)).trans (hi _ _)
    rw [List.length_cons, run_core_succ _ hstep, ih, List.append_assoc, List.singleton_append]

end Runs

/-! ## The runs of one operation -/

section SingleRuns

variable {b : Block} {i : Instr} {k : Cause}

/-- Where the table of R31 names a cause, the operation raises it. -/
theorem exec_of_faultOf {s : State} (hf : faultOf hw s.block (.ok i) = some k) : exec i s = .next (raise k s) := by
  cases i with
  | push v =>
    rw [faultOf_push] at hf
    split at hf
    · next hp => cases hf; exact exec_push_of_not_load hp
    · next hp =>
      split at hf
      · next hl => cases hf; exact exec_push_of_full (not_not.mp hp) hl
      · cases hf
  | fin =>
    rw [faultOf_fin] at hf
    split at hf
    · next hp => cases hf; exact exec_fin_of_not_load hp
    · cases hf
  | rdf off =>
    rw [faultOf_rdf] at hf
    split at hf
    · next hp => cases hf; exact exec_rdf_of_not_done hp
    · next hp =>
      split at hf
      · next ho => cases hf; exact exec_rdf_of_ge (not_not.mp hp) ho
      · cases hf
  | rdck =>
    rw [faultOf_rdck] at hf
    split at hf
    · next hp => cases hf; exact exec_rdck_of_fault hp
    · cases hf
  | nop | clr | rdst => cases hf

theorem runs_of_faultOf (hf : faultOf hw b (.ok i) = some k) : b.Runs [i] (b.raise k) [⟨true, k.rsp⟩] :=
  .single fun rest old => exec_of_faultOf (s := ⟨b, rest, old⟩) hf

/-- In FAULT a further fault leaves the block as it is (R130). -/
theorem runs_of_faultOf_in_fault (hp : b.phase = .fault) (hf : faultOf hw b (.ok i) = some k) :
    b.Runs [i] b [⟨true, k.rsp⟩] := by
  simpa only [Block.raise_of_fault hp] using runs_of_faultOf hf

theorem runs_clr (b : Block) : b.Runs [.clr] (Block.initial hw) [⟨false, 0⟩] := .single fun _ _ => rfl

theorem payloadEnd_lt (hl : b.len.toNat < hw.maxLen) : payloadEnd b.len < hw.width := by
  rw [hw_maxLen] at hl
  rw [payloadEnd, hw_width]
  omega

theorem runs_push (v : Byte) (hp : b.phase = .load) (hl : b.len.toNat < hw.maxLen) :
    b.Runs [.push v] (b.afterPush v) [⟨false, 0⟩] :=
  .single fun rest old => exec_push_of_room (s := ⟨b, rest, old⟩) hp hl.ne (payloadEnd_lt hl)

theorem runs_rdck (hp : b.phase ≠ .fault) : b.Runs [.rdck] b [⟨false, finishChecksum hw b.acc⟩] :=
  .single fun rest old => exec_rdck_of_not_fault (s := ⟨b, rest, old⟩) hp

theorem runs_rdf {off : Byte} (hp : b.phase = .done) (ho : off.toNat < hw.width) :
    b.Runs [.rdf off] b [⟨false, zext16 (b.fb.get off.toNat)⟩] :=
  .single fun rest old => exec_rdf_of_lt (s := ⟨b, rest, old⟩) hp ho

end SingleRuns

/-! # Building a frame, phase by phase (R71, R72) -/

section Building

variable {b : Block} {p q : List Byte}

/-- The block holds the payload `p` and the invariant of R30, in the given phase. -/
structure Block.Holds (b : Block) (phase : Phase) (p : List Byte) : Prop where
  inv : Block.Inv hw b
  phase_eq : b.phase = phase
  payload_eq : payload b = p

theorem Block.Holds.len_eq {φ : Phase} (h : b.Holds φ p) : b.len.toNat = p.length := by
  rw [← length_payload, h.payload_eq]

/-- Under R30 item 1 the frame of the payload fits the buffer. -/
theorem Block.Inv.frame_fits (h : Block.Inv hw b) : b.len.toNat + 3 ≤ hw.width := by
  have hlen := h.len_bounded
  rw [hw_maxLen] at hlen
  rw [hw_width]
  omega

theorem Block.initial_holds : (Block.initial hw).Holds .load [] := ⟨Block.initial_inv, rfl, rfl⟩

theorem runs_push_holds (h : b.Holds .load p) (hl : p.length < hw.maxLen) (v : Byte) :
    b.Runs [.push v] (b.afterPush v) [⟨false, 0⟩] ∧ (b.afterPush v).Holds .load (p ++ [v]) := by
  have hlen : b.len.toNat < hw.maxLen := h.len_eq.trans_lt hl
  have hlt := payloadEnd_lt hlen
  exact ⟨runs_push v h.phase_eq hlen, h.inv.afterPush v h.phase_eq hlt hlen.ne, h.phase_eq,
    by rw [payload_afterPush hlt, h.payload_eq]⟩

theorem runs_pushes_holds (h : b.Holds .load p) (hl : (p ++ q).length ≤ hw.maxLen) :
    ∃ b', b.Runs (q.map .push) b' (List.replicate q.length ⟨false, 0⟩) ∧ b'.Holds .load (p ++ q) := by
  induction q generalizing b p with
  | nil => exact ⟨b, .nil b, by rwa [List.append_nil]⟩
  | cons v q ih =>
    rw [List.append_cons] at hl ⊢
    have hp : p.length < hw.maxLen := by
      simp only [List.length_append, List.length_singleton] at hl
      omega
    obtain ⟨hrun, hv⟩ := runs_push_holds h hp v
    obtain ⟨b', hruns, hb'⟩ := ih hv hl
    exact ⟨b', hrun.append hruns, hb'⟩

theorem runs_fin_holds (h : b.Holds .load p) :
    ∃ b', b.Runs [.fin] b' [⟨false, 0⟩] ∧ b'.Holds .done p := by
  obtain ⟨fb, hfb⟩ := placeFrame_of_le (ck := finishChecksum hw b.acc) (m := b.fb) h.inv.frame_fits
  obtain ⟨-, -, -, -, -, hkept, -⟩ := placeFrame_ok hfb
  refine ⟨{ b with fb := fb, phase := .done },
    .single fun rest old => exec_fin_of_placed (s := ⟨b, rest, old⟩) h.phase_eq hfb,
    h.inv.placed h.phase_eq hfb, rfl, ?_⟩
  rw [← h.payload_eq]
  exact payload_congr rfl hkept

theorem runs_rdck_holds (h : b.Holds .load p) : b.Runs [.rdck] b [⟨false, checksum hw p⟩] := by
  have hp : b.phase ≠ .fault := by simp [h.phase_eq]
  have hck : finishChecksum hw b.acc = checksum hw p := by rw [h.inv.acc_payload, h.payload_eq, checksum]
  exact hck ▸ runs_rdck hp

theorem frame_length {c : Config} (h : p.length + 3 ≤ c.width) : (frame c p).length = c.width := by
  simp only [frame, List.length_append, List.length_cons, List.length_nil, List.length_replicate]
  omega

/-- R30 item 6: in DONE the buffer, read from offset 0 to `W - 1`, is the frame. -/
theorem map_get_range_eq_frame (h : b.Holds .done p) : (List.range hw.width).map b.fb.get = frame hw p := by
  have hlen : (frame hw p).length = hw.width := frame_length (h.len_eq ▸ h.inv.frame_fits)
  refine List.ext_getElem (by simp [hlen]) fun k hk hk' => ?_
  rw [List.getElem_map, List.getElem_range, get_of_inv_of_done (s := ⟨b, [], []⟩) h.inv h.phase_eq (hlen ▸ hk'),
    h.payload_eq, List.getD_eq_getElem]

theorem runs_dump_holds (h : b.Holds .done p) :
    b.Runs (macroDump hw) b ((frame hw p).map fun v => ⟨false, v.setWidth 16⟩) := by
  rw [← map_get_range_eq_frame h, List.map_map]
  refine .map fun k hk => ?_
  have hk := List.mem_range.mp hk
  have hoff : (BitVec.ofNat 8 k).toNat = k := by
    rw [hw_width] at hk
    rw [BitVec.toNat_ofNat]
    omega
  have hread := runs_rdf (off := BitVec.ofNat 8 k) h.phase_eq (hoff.symm ▸ hk)
  rwa [hoff] at hread

/-! ## A payload that does not fit -/

/-- In FAULT, operations that are out of sequence there are answered by SEQUENCE, one by one. -/
theorem runs_sequence_in_fault {l : List Instr} (hp : b.phase = .fault)
    (hl : ∀ i ∈ l, faultOf hw b (.ok i) = some .sequence) : b.Runs l b (List.replicate l.length ⟨true, 3⟩) := by
  have hruns : b.Runs (l.map id) b (l.map fun _ => ⟨true, Cause.sequence.rsp⟩) :=
    .map fun i hi => runs_of_faultOf_in_fault hp (hl i hi)
  rwa [List.map_id, List.map_const'] at hruns

theorem runs_pushes_in_fault (hp : b.phase = .fault) (q : List Byte) :
    b.Runs (q.map .push) b (List.replicate q.length ⟨true, 3⟩) := by
  have hl : ∀ i ∈ q.map Instr.push, faultOf hw b (.ok i) = some .sequence := by
    intro i hi
    obtain ⟨v, -, rfl⟩ := List.mem_map.mp hi
    simp [faultOf_push, hp]
  simpa only [List.length_map] using runs_sequence_in_fault hp hl

/-! ## `CLR` and the pushes, which `CHECKSUM p` and `BUILD p` begin with -/

theorem runs_load_of_fits (b : Block) (hfit : p.length ≤ hw.maxLen) : ∃ b', b'.Holds .load p ∧
    b.Runs (.clr :: p.map .push) b' (List.replicate (p.length + 1) ⟨false, 0⟩) := by
  obtain ⟨b', hpush, hb'⟩ := runs_pushes_holds (q := p) Block.initial_holds hfit
  exact ⟨b', hb', (runs_clr b).append hpush⟩

/-- One byte beyond the limit is the first fault, and every later `PUSH` is in FAULT. -/
theorem runs_load_of_too_long (b : Block) (hlong : hw.maxLen < p.length) : ∃ b', b'.phase = .fault ∧
    b.Runs (.clr :: p.map .push) b' (List.replicate (hw.maxLen + 1) ⟨false, 0⟩ ++ [⟨true, 1⟩] ++
      List.replicate (p.length - (hw.maxLen + 1)) ⟨true, 3⟩) := by
  have hfit : (p.take hw.maxLen).length = hw.maxLen := List.length_take_of_le hlong.le
  obtain ⟨b₁, hb₁, hload⟩ := runs_load_of_fits b hfit.le
  have hfull : faultOf hw b₁ (.ok (.push p[hw.maxLen])) = some .overflow := by
    rw [faultOf_push, if_neg (not_not.mpr hb₁.phase_eq), if_pos (hb₁.len_eq.trans hfit)]
  have hp : p.map Instr.push =
      (p.take hw.maxLen).map .push ++ [.push p[hw.maxLen]] ++ (p.drop (hw.maxLen + 1)).map .push := by
    rw [← List.map_singleton, ← List.map_append, List.take_append_getElem hlong, ← List.map_append,
      List.take_append_drop]
  refine ⟨b₁.raise .overflow, Block.raise_phase _ _, ?_⟩
  have hruns := (hload.append (runs_of_faultOf hfull)).append
    (runs_pushes_in_fault (Block.raise_phase .overflow b₁) (p.drop (hw.maxLen + 1)))
  rw [hfit, List.length_drop] at hruns
  rw [hp]
  exact hruns

end Building

/-! ## `CHECKSUM p`, `BUILD p` and `DUMP` (R71, R72) -/

section Programs

variable {p : List Byte}

theorem runs_checksum_of_fits (b : Block) (hfit : p.length ≤ hw.maxLen) : ∃ b', b.Runs (macroChecksum p) b'
    (List.replicate (p.length + 1) ⟨false, 0⟩ ++ [⟨false, checksum hw p⟩]) := by
  obtain ⟨b', hb', hload⟩ := runs_load_of_fits b hfit
  exact ⟨b', hload.append (runs_rdck_holds hb')⟩

theorem runs_checksum_of_too_long (b : Block) (hlong : hw.maxLen < p.length) : ∃ b', b.Runs (macroChecksum p) b'
    (List.replicate (hw.maxLen + 1) ⟨false, 0⟩ ++ [⟨true, 1⟩] ++
      List.replicate (p.length - (hw.maxLen + 1)) ⟨true, 3⟩ ++ [⟨true, 3⟩]) := by
  obtain ⟨b', hp, hload⟩ := runs_load_of_too_long b hlong
  have hck : b'.Runs [.rdck] b' [⟨true, 3⟩] := runs_sequence_in_fault hp (by simp [faultOf_rdck, hp])
  exact ⟨b', hload.append hck⟩

theorem runs_build_of_fits (b : Block) (hfit : p.length ≤ hw.maxLen) : ∃ b', b'.Holds .done p ∧
    b.Runs (macroBuild p) b' (List.replicate (p.length + 2) ⟨false, 0⟩) := by
  obtain ⟨b₁, hb₁, hload⟩ := runs_load_of_fits b hfit
  obtain ⟨b₂, hfin, hb₂⟩ := runs_fin_holds hb₁
  refine ⟨b₂, hb₂, ?_⟩
  rw [List.replicate_succ']
  exact hload.append hfin

theorem runs_build_of_too_long (b : Block) (hlong : hw.maxLen < p.length) : ∃ b', b'.phase = .fault ∧
    b.Runs (macroBuild p) b' (List.replicate (hw.maxLen + 1) ⟨false, 0⟩ ++ [⟨true, 1⟩] ++
      List.replicate (p.length - (hw.maxLen + 1) + 1) ⟨true, 3⟩) := by
  obtain ⟨b', hp, hload⟩ := runs_load_of_too_long b hlong
  have hfin : b'.Runs [.fin] b' [⟨true, 3⟩] := runs_sequence_in_fault hp (by simp [faultOf_fin, hp])
  refine ⟨b', hp, ?_⟩
  rw [List.replicate_succ' (n := p.length - (hw.maxLen + 1)), ← List.append_assoc]
  exact hload.append hfin

theorem runs_dump_in_fault {b : Block} (hp : b.phase = .fault) :
    b.Runs (macroDump hw) b (List.replicate 64 ⟨true, 3⟩) := by
  have hlen : (macroDump hw).length = 64 := by simp [macroDump]
  rw [← hlen]
  exact runs_sequence_in_fault hp (by simp [macroDump, faultOf_rdf, hp])

end Programs

/-! # The statements of 30_encoding.md -/

/-- Settles O1. -/
theorem decodeOfEncode : Obligations.DecodeOfEncode := fun i _ => decode_encode i

/-- Settles O52: up to 61 bytes the pushes all fit and `RDCK` reads their checksum, beyond that the 62nd enters FAULT. -/
theorem checksumMacroResponses : Obligations.ChecksumMacroResponses := by
  intro s p rest hin
  have hlen : (macroChecksum p).length = p.length + 2 := by simp [macroChecksum]
  refine ⟨hlen, ?_⟩
  rw [← hlen]
  split
  · next hfit =>
    obtain ⟨b, hruns⟩ := runs_checksum_of_fits s.block (hfit.trans_eq hw_maxLen.symm)
    exact ⟨_, hruns.run_core hin, rfl, rfl⟩
  · next hlong =>
    obtain ⟨b, hruns⟩ := runs_checksum_of_too_long s.block (hw_maxLen.trans_lt (not_le.mp hlong))
    exact ⟨_, hruns.run_core hin, rfl, rfl⟩

/-- Settles O53: `BUILD p` ends in DONE with the frame of `p` in the buffer, or in FAULT, where no `RDF` reads. -/
theorem buildAndDumpResponses : Obligations.BuildAndDumpResponses := by
  intro s p rest hin
  have hbuild : (macroBuild p).length = p.length + 2 := by simp [macroBuild]
  have hdump : (macroDump hw).length = 64 := by simp [macroDump]
  refine ⟨hbuild, hdump, ?_⟩
  have hlen : (macroBuild p ++ macroDump hw).length = p.length + 2 + 64 := by rw [List.length_append, hbuild, hdump]
  rw [← hlen]
  split
  · next hfit =>
    obtain ⟨b, hb, hruns⟩ := runs_build_of_fits s.block (hfit.trans_eq hw_maxLen.symm)
    exact ⟨_, (hruns.append (runs_dump_holds hb)).run_core hin, rfl, rfl⟩
  · next hlong =>
    obtain ⟨b, hp, hruns⟩ := runs_build_of_too_long s.block (hw_maxLen.trans_lt (not_le.mp hlong))
    exact ⟨_, (hruns.append (runs_dump_in_fault hp)).run_core hin, rfl, rfl⟩

/-- Settles O2: the word is made up of its two fields, and the decoder accepts only a zero data field where the operation
has no operand. -/
theorem encodeOfDecode : Obligations.EncodeOfDecode := fun _ _ => encode_of_decode

/-- Settles O4: a word selects the row of what it decodes to, and the words that decode are those of the 5 + 2 * 256
operations. -/
theorem rowsSelectDecodedWords : Obligations.RowsSelectDecodedWords := by
  refine ⟨fun r hr w => selects_iff_decodes hr w, ?_, ?_⟩
  · have hrows : opcodeRows.Nodup := by decide
    exact hrows.imp_of_mem fun hr hr' hne w hs => hne (eq_of_selects hr hr' hs.1 hs.2)
  · rw [decoding_perm_words.length_eq, List.length_map, length_allInstrs]

/-- Settles O6: what is emitted is the word of the operation read. -/
theorem assemblerNeverReserved : Obligations.AssemblerNeverReserved := by
  intro line w h
  obtain ⟨i, hi, rfl⟩ := assembleLine_eq_some h
  exact ⟨i, decode_encode i, hi⟩

/-- Settles O25: the response is the block's answer to the word, a cause's code or the operation's value. -/
theorem oneResponsePerCommand : Obligations.OneResponsePerCommand := by
  intro s t w rest hin h
  refine ⟨step_inputs hin h, _, (step_answer hin h).1, ?_⟩
  rcases s.block.answer_cases (decode w) with ⟨k, ha⟩ | ⟨i, hd, ha⟩
  · rw [ha]
    exact ⟨fun _ => k.rsp_bounds, nofun⟩
  · rw [ha, hd]
    refine ⟨nofun, fun _ => ?_⟩
    cases i with
    | rdf off => exact ⟨rfl, highByte_zext16 _⟩
    | rdck => exact finishChecksum_hw _
    | nop | clr | push | fin | rdst => rfl

/-- Settles O3: case by case on the opcode; a word that decodes to none is a reserved one. -/
theorem decodeFollowsCases : Obligations.DecodeFollowsCases := by
  refine ⟨decode_toOption, fun s w rest hin hnone => ?_⟩
  cases hd : decode w with
  | ok i => rw [hd] at hnone; cases hnone
  | error why => exact step_of_reserved hin hd

/-- Settles O5: the decoder evaluated on each of the nine words. -/
theorem specWordsDecode : Obligations.SpecWordsDecode := ⟨rfl, rfl, rfl, rfl, rfl, rfl, rfl, rfl, rfl⟩

/-- Settles O48: the checksum EC65 of the shorter payload and the first padding bytes are the further bytes of the longer
one, whose own checksum 0000 reads as padding. -/
theorem frameIsNotInjective : Obligations.FrameIsNotInjective := by
  refine ⟨?_, ?_, ?_⟩ <;> decide +kernel

end Sys2Proof.Machine

/-! # The iteration of the checksum (R80, R81)

The laws hold for every polynomial, unless a hypothesis names what they need of it. -/

namespace Sys2Proof.Machine

section Iteration

variable {c c' : Config} {a : Word}

theorem crcBit_of_top_set (h : a.getLsbD 15 = true) : crcBit c a = (a <<< 1) ^^^ c.poly := if_pos h

theorem crcBit_of_top_clear (h : a.getLsbD 15 = false) : crcBit c a = a <<< 1 :=
  if_neg (Bool.eq_false_iff.mp h)

/-- The tested bit says whether the number is in the upper half. -/
theorem top_eq_decide (a : Word) : a.getLsbD 15 = decide (0x8000 ≤ a.toNat) :=
  (BitVec.msb_eq_getLsbD_last a).symm.trans (BitVec.msb_eq_decide a)

theorem toNat_shiftLeft_one (a : Word) : (a <<< 1).toNat = a.toNat * 2 % 65536 := by
  rw [BitVec.toNat_shiftLeft, Nat.shiftLeft_eq]

theorem crcBits_eq_of_poly_eq (h : c.poly = c'.poly) (n : Nat) (a : Word) : crcBits c n a = crcBits c' n a := by
  induction n generalizing a with
  | zero => rfl
  | succ n ih => rw [crcBits, crcBits, crcBit, crcBit, h, ih]

/-! ## Linearity over XOR (R86 item 1) -/

theorem crcBit_eq_xor (c : Config) (a : Word) :
    crcBit c a = (a <<< 1) ^^^ (if a.getLsbD 15 then c.poly else 0) := by
  rw [crcBit]
  split
  · rfl
  · exact BitVec.xor_zero.symm

/-- The tested bit of an XOR is the XOR of the tested bits, and the polynomial entering twice cancels. -/
theorem crcBit_xor (c : Config) (x y : Word) : crcBit c (x ^^^ y) = crcBit c x ^^^ crcBit c y := by
  have hpoly : ∀ p q : Bool, (if p ^^ q then c.poly else 0) =
      (if p then c.poly else 0) ^^^ (if q then c.poly else 0) := by
    intro p q
    cases p <;> cases q <;> simp
  rw [crcBit_eq_xor, BitVec.shiftLeft_xor_distrib, BitVec.getLsbD_xor, hpoly, crcBit_eq_xor, crcBit_eq_xor]
  ac_rfl

theorem crcBits_xor (c : Config) (n : Nat) (x y : Word) :
    crcBits c n (x ^^^ y) = crcBits c n x ^^^ crcBits c n y := by
  induction n generalizing x y with
  | zero => rfl
  | succ n ih => rw [crcBits, crcBit_xor, ih, crcBits, crcBits]

/-! ## A value whose tested bits are all 0 is only shifted (R86 item 2) -/

theorem crcBits_eq_shiftLeft (c : Config) (n : Nat) (h : a.toNat * 2 ^ n < 65536) : crcBits c n a = a <<< n := by
  induction n generalizing a with
  | zero => exact (BitVec.shiftLeft_zero a).symm
  | succ n ih =>
    have hpow : 1 ≤ 2 ^ n := Nat.one_le_two_pow
    have hle : a.toNat * 2 * 2 ^ n < 65536 := by rwa [Nat.mul_assoc, ← Nat.pow_succ']
    have hlow : a.toNat * 2 < 65536 := (Nat.le_mul_of_pos_right _ hpow).trans_lt hle
    have htop : a.getLsbD 15 = false := by
      rw [top_eq_decide, decide_eq_false_iff_not]
      omega
    have hnext : (a <<< 1).toNat * 2 ^ n < 65536 := by rwa [toNat_shiftLeft_one, Nat.mod_eq_of_lt hlow]
    rw [crcBits, crcBit_of_top_clear htop, ih hnext, ← BitVec.shiftLeft_add, Nat.add_comm]

theorem toNat_zext16 (b : Byte) : (zext16 b).toNat = b.toNat :=
  BitVec.toNat_setWidth_of_le (by decide)

theorem crcBits_eight_zext16 (c : Config) (b : Byte) : crcBits c 8 (zext16 b) = zext16 b <<< 8 := by
  have hb := b.isLt
  refine crcBits_eq_shiftLeft c 8 ?_
  rw [toNat_zext16]
  omega

/-! ## Nothing is lost in an iteration -/

/-- With an odd polynomial, bit 0 after an iteration is the bit that was shifted out. -/
theorem crcBit_getLsbD_zero (hodd : c.poly.getLsbD 0 = true) (a : Word) :
    (crcBit c a).getLsbD 0 = a.getLsbD 15 := by
  cases htop : a.getLsbD 15 with
  | false => simp [crcBit_of_top_clear htop]
  | true => rw [crcBit_of_top_set htop, BitVec.getLsbD_xor, hodd]; simp

theorem crcBit_injective (hodd : c.poly.getLsbD 0 = true) : Function.Injective (crcBit c) := by
  intro x y h
  have htop : x.getLsbD 15 = y.getLsbD 15 := by rw [← crcBit_getLsbD_zero hodd, h, crcBit_getLsbD_zero hodd]
  have hshift : x <<< 1 = y <<< 1 := by
    rw [crcBit, crcBit, htop] at h
    split at h
    · exact (BitVec.xor_left_inj _).mp h
    · exact h
  have hnum := congrArg BitVec.toNat hshift
  rw [toNat_shiftLeft_one, toNat_shiftLeft_one] at hnum
  rw [top_eq_decide, top_eq_decide, decide_eq_decide] at htop
  have hx := x.isLt
  have hy := y.isLt
  apply BitVec.eq_of_toNat_eq
  omega

theorem crcBits_injective (hodd : c.poly.getLsbD 0 = true) (n : Nat) : Function.Injective (crcBits c n) := by
  induction n with
  | zero => exact Function.injective_id
  | succ n ih => exact ih.comp (crcBit_injective hodd)

end Iteration

/-! # One byte of the checksum in this hardware (R81, R82) -/

section OneByte

theorem crcByte_hw (a : Word) (b : Byte) : crcByte hw a b = crcBits hw 8 (a ^^^ zext16 b) := rfl

/-- The byte is moved from bits [7:0] to bits [15:8], beside the iterations of the accumulator. -/
theorem crcByte_hw_eq_xor (a : Word) (b : Byte) : crcByte hw a b = crcBits hw 8 a ^^^ (zext16 b <<< 8) := by
  rw [crcByte_hw, crcBits_xor, crcBits_eight_zext16]

theorem crcByte_high (a : Word) (b : Byte) :
    crcByte { hw with inject := .high } a b = crcBits hw 8 (a ^^^ (zext16 b <<< 8)) :=
  crcBits_eq_of_poly_eq rfl 8 _

theorem lowByte_zext16 (b : Byte) : lowByte (zext16 b) = b := by
  have hb := b.isLt
  apply BitVec.eq_of_toNat_eq
  rw [lowByte, BitVec.extractLsb'_toNat, toNat_zext16, Nat.shiftRight_zero]
  omega

theorem highByte_append_lowByte (v : Word) : highByte v ++ lowByte v = v :=
  (BitVec.extractLsb'_append_extractLsb'_eq_extractLsb' rfl).trans BitVec.extractLsb'_eq_self

theorem zext16_shiftLeft_eq_iff (b : Byte) : zext16 b <<< 8 = zext16 b ↔ b = 0 := by
  constructor
  · intro h
    have hb := b.isLt
    have hnum := congrArg BitVec.toNat h
    rw [BitVec.toNat_shiftLeft, Nat.shiftLeft_eq, toNat_zext16] at hnum
    have hzero : b.toNat = 0 := by omega
    exact BitVec.eq_of_toNat_eq hzero
  · rintro rfl
    rfl

/-- The checksum with one more byte is what the iterations make of the payload before it, and that byte on top. -/
theorem checksum_concat (p : List Byte) (b : Byte) :
    checksum hw (p ++ [b]) = ~~~(crcBits hw 8 (crcAcc hw p)) ^^^ (zext16 b <<< 8) := by
  rw [checksum, finishChecksum_hw, crcAcc_concat, crcByte_hw_eq_xor, BitVec.not_xor_left]

end OneByte

/-! # A word with an operand where the operation takes none (R64) -/

theorem withoutOperand_error {d : Byte} (hd : d ≠ 0) (i : Instr) : withoutOperand d i = .error .operand := if_neg hd

theorem decode_of_operand {w : CmdWord}
    (hop : opField w = 0 ∨ opField w = 1 ∨ opField w = 3 ∨ opField w = 5 ∨ opField w = 6)
    (hd : dataField w ≠ 0) : decode w = .error .operand := by
  rw [decode]
  rcases hop with h | h | h | h | h <;> rw [h] <;> exact withoutOperand_error hd _

/-! # Special reads of `RDCK` (R89) -/

section Rdck

variable {s t : State}

/-- With ACC at INIT, as after reset and after `CLR`, `RDCK` reads the checksum of the empty payload. -/
theorem exec_rdck_of_init (hp : s.block.phase ≠ .fault) (hacc : s.block.acc = hw.init) :
    exec .rdck s = .next (succeed 0 s) := by
  rw [exec_rdck_of_not_fault hp, hacc]
  rfl

/-- What `FIN` placed is what `RDCK` reads after it: `FIN` leaves ACC, and the two bytes side by side are the checksum. -/
theorem exec_rdck_after_fin (hp : s.block.phase = .load) (h : exec .fin s = .next t) :
    exec .rdck t = .next (succeed
      (t.block.fb.get (payloadEnd s.block.len) ++ t.block.fb.get (checksumEnd s.block.len)) t) := by
  rcases execFin_next h with ⟨hne, -⟩ | ⟨-, fb, hfb, rfl⟩
  · exact absurd hp hne
  · obtain ⟨-, -, hlow, hhigh, -⟩ := placeFrame_ok hfb
    have hck : fb.get (payloadEnd s.block.len) ++ fb.get (checksumEnd s.block.len) =
        finishChecksum hw s.block.acc := by
      rw [hhigh, hlow]
      exact highByte_append_lowByte _
    rw [exec_rdck_of_not_fault (by simp)]
    simp only [succeed_block, hck]

end Rdck

/-! # Loading a payload (R90) -/

section Loading

variable {b : Block} {p : List Byte} {i : Instr} {l : List Instr}

theorem pushedBytes_cons (i : Instr) (l : List Instr) : pushedBytes (i :: l) = pushedBytes [i] ++ pushedBytes l := by
  cases i <;> rfl

/-- `PUSH` extends the payload, and the other three operations leave the block as it is. -/
theorem runs_loading_step (h : b.Holds .load p) (hi : isLoading i = true)
    (hl : (p ++ pushedBytes [i]).length ≤ hw.maxLen) :
    ∃ b' r, b.Runs [i] b' [r] ∧ b'.Holds .load (p ++ pushedBytes [i]) := by
  cases i with
  | push v =>
    have hp : p.length < hw.maxLen := by simpa [pushedBytes] using hl
    obtain ⟨hrun, hv⟩ := runs_push_holds h hp v
    exact ⟨_, _, hrun, hv⟩
  | nop => exact ⟨b, ⟨false, 0⟩, .single fun _ _ => rfl, by simpa [pushedBytes] using h⟩
  | rdck => exact ⟨b, _, runs_rdck_holds h, by simpa [pushedBytes] using h⟩
  | rdst => exact ⟨b, ⟨false, statusWord b⟩, .single fun _ _ => rfl, by simpa [pushedBytes] using h⟩
  | clr | fin | rdf => cases hi

theorem runs_loading (h : b.Holds .load p) (hl : ∀ i ∈ l, isLoading i = true)
    (hfit : (p ++ pushedBytes l).length ≤ hw.maxLen) :
    ∃ b' rs, b.Runs l b' rs ∧ b'.Holds .load (p ++ pushedBytes l) := by
  induction l generalizing b p with
  | nil => exact ⟨b, [], .nil b, by simpa [pushedBytes] using h⟩
  | cons i l ih =>
    obtain ⟨hi, hl⟩ := List.forall_mem_cons.mp hl
    rw [pushedBytes_cons, ← List.append_assoc] at hfit ⊢
    have hfirst : (p ++ pushedBytes [i]).length ≤ hw.maxLen := by
      rw [List.length_append] at hfit
      omega
    obtain ⟨b₁, r, hstep, hb₁⟩ := runs_loading_step h hi hfirst
    obtain ⟨b₂, rs, hruns, hb₂⟩ := ih hb₁ hl hfit
    exact ⟨b₂, _, hstep.append hruns, hb₂⟩

/-- From any block, `CLR` and then the loading of a payload that fits. -/
theorem runs_clr_loading (b : Block) (hl : ∀ i ∈ l, isLoading i = true) (hfit : (pushedBytes l).length ≤ hw.maxLen) :
    ∃ b' rs, b.Runs (.clr :: l) b' rs ∧ b'.Holds .load (pushedBytes l) := by
  obtain ⟨b', rs, hruns, hb'⟩ := runs_loading Block.initial_holds hl hfit
  exact ⟨b', _, (runs_clr b).append hruns, hb'⟩

end Loading

/-! # The statements of 40_checksum.md -/

/-- Settles O50: `CLR` starts the empty payload, each operation of the list keeps what was pushed so far, and `RDCK` reads
R30 item 5. -/
theorem pushedChecksumAgrees : Obligations.PushedChecksumAgrees := by
  intro s l rest hin hl hfit
  obtain ⟨b, rs, hruns, hb⟩ := runs_clr_loading s.block hl (hfit.trans_eq hw_maxLen.symm)
  have hacc : b.acc = crcAcc hw (pushedBytes l) := by rw [hb.inv.acc_payload, hb.payload_eq]
  have hp : b.phase ≠ .fault := by simp [hb.phase_eq]
  refine ⟨_, hruns.run_core hin, hacc, hb.len_eq, hb.phase_eq, rfl, ?_⟩
  rw [exec_rdck_of_not_fault hp, hacc]
  rfl

/-- Settles O15. -/
theorem pushAppendsOrFaults : Obligations.PushAppendsOrFaults := by
  refine ⟨fun b => rfl, fun b s hp => exec_push_of_not_load hp,
    fun b s hp hl => exec_push_of_full hp (hl.trans hw_maxLen.symm), fun b s hp hl => ?_, ?_⟩
  · have hlen : s.block.len.toNat < hw.maxLen := hl.trans_eq hw_maxLen.symm
    refine ⟨s.block.fb.set (payloadEnd s.block.len) b, ?_, ?_, rfl, fun i hi => ?_⟩
    · rw [exec_push_of_room hp hlen.ne (payloadEnd_lt hlen), ← hp]
      rfl
    · rw [Memory.get_set, if_pos rfl]
    · rw [Memory.get_set, if_neg hi]
  · have hlen : State.reset.block.len.toNat < hw.maxLen := by decide
    refine ⟨_, exec_push_of_room rfl hlen.ne (payloadEnd_lt hlen), ?_, ?_, rfl, rfl⟩
    · rfl
    · decide +kernel

/-- Settles O18. -/
theorem rdckReadsChecksumOrFaults : Obligations.RdckReadsChecksumOrFaults := by
  refine ⟨rfl, fun s hp => exec_rdck_of_fault hp, fun s hp => ?_, fun w hop hd => ?_,
    exec_rdck_of_init (by simp) rfl, fun s => ⟨_, rfl, exec_rdck_of_init (by simp) rfl⟩,
    fun s hinv => ?_, ?_, fun s t hp _ h => exec_rdck_after_fin hp h⟩
  · rw [exec_rdck_of_not_fault hp, finishChecksum_hw]
    rfl
  · exact decode_of_operand (.inr (.inr (.inr (.inl hop)))) hd
  · rw [← finishChecksum_hw, finishChecksum_acc_of_inv hinv]
  · decide +kernel

/-- Settles O32. -/
theorem pushExtendsPayload : Obligations.PushExtendsPayload := by
  intro b s hp hl
  have hlen : s.block.len.toNat < hw.maxLen := hl.trans_eq hw_maxLen.symm
  have hlt := payloadEnd_lt hlen
  exact ⟨_, exec_push_of_room hp hlen.ne hlt, payload_afterPush hlt⟩

/-- Settles O37: the tested bit is set exactly in the upper half of the numbers. -/
theorem crcBitValue : Obligations.CrcBitValue := by
  refine ⟨fun a => ?_, fun a => ?_, rfl, rfl, rfl, rfl⟩
  · simp only [crcBit, top_eq_decide, decide_eq_true_eq, apply_ite BitVec.toNat, BitVec.toNat_xor,
      toNat_shiftLeft_one, hw_poly]
    rfl
  · rw [crcBit, BitVec.getLsbD_eq_extractLsb', hw_poly]
    rcases BitVec.eq_zero_or_eq_one (a.extractLsb' 15 1) with h | h
    · rw [h]; exact BitVec.xor_zero.symm
    · rw [h]; rfl

/-- Settles O39: the iterations are injective, so the readings agree where the byte is the same in both places. -/
theorem injectReadingsDiffer : Obligations.InjectReadingsDiffer := by
  refine ⟨crcByte_high, fun a b => ?_⟩
  rw [crcByte_high, crcByte_hw, (crcBits_injective (by decide) 8).eq_iff, BitVec.xor_right_inj]
  exact zext16_shiftLeft_eq_iff b

/-- Settles O42. -/
theorem iterationIsLinear : Obligations.IterationIsLinear :=
  ⟨crcBit_xor hw, crcBits_xor hw 8, rfl, fun _ _ => List.foldl_append⟩

/-- Settles O43. -/
theorem lastByteMovesHighByte : Obligations.LastByteMovesHighByte := by
  refine ⟨crcByte_hw_eq_xor, fun p b => ?_⟩
  rw [checksum_concat, checksum_concat]
  exact congrArg (· ^^^ _) BitVec.xor_zero.symm

/-- Settles O38: the byte enters bits [7:0], since bits [15:8] of its extension are 0. -/
theorem crcByteValue : Obligations.CrcByteValue := by
  refine ⟨fun a b => rfl, fun a b => ⟨?_, ?_⟩, ?_, ?_, ?_⟩
  · rw [BitVec.extractLsb'_xor]
    exact (congrArg _ (highByte_zext16 b)).trans BitVec.xor_zero
  · rw [BitVec.extractLsb'_xor]
    exact congrArg _ (lowByte_zext16 b)
  all_goals decide +kernel

/-- Settles O40. -/
theorem accumulatorFoldsPayload : Obligations.AccumulatorFoldsPayload := ⟨hw_init, crcAcc_concat hw⟩

/-- Settles O41: XOROUT has every bit set. -/
theorem checksumIsComplement : Obligations.ChecksumIsComplement :=
  ⟨fun _ => ⟨finishChecksum_hw _, rfl⟩, rfl, fun _ => ⟨rfl, rfl⟩⟩

/-- Settles O44: the five values by evaluation, the checksum of one byte as the last byte of its payload. -/
theorem iterationValues : Obligations.IterationValues := by
  refine ⟨?_, ?_, ?_, ?_, ?_, fun b => checksum_concat [] b⟩ <;> decide +kernel

end Sys2Proof.Machine

/-! # The block on any inputs, resets and reserved words included (R8, R107)

`Block.Runs` speaks of operations; here the host may issue any word and reset the block. -/

namespace Sys2Proof.Machine

section AnyInputs

variable {b : Block}

/-- A step on one input, as a fact of the block: what it leaves and answers, whatever the ports held before. -/
theorem step_of_block (hlen : b.len.toNat ≤ hw.maxLen) (x : Input) :
    ∃ b' rs, ∀ rest old, step ⟨b, x :: rest, old⟩ = .next ⟨b', rest, old ++ rs⟩ := by
  obtain ⟨t, ht⟩ := step_completes (s := ⟨b, [x], []⟩) hlen
  exact ⟨t.block, newResponses ⟨b, [x], []⟩ t, fun _ _ => step_carryAnswer rfl rfl rfl ht⟩

/-- The same for a list of inputs; the invariant keeps LEN within the bound that each step needs. -/
theorem run_core_of_block (hinv : Block.Inv hw b) (l : List Input) :
    ∃ b' rs, ∀ old, Host.Core.run core l.length ⟨b, l, old⟩ = .next ⟨b', [], old ++ rs⟩ := by
  induction l generalizing b with
  | nil => exact ⟨b, [], fun old => by rw [List.append_nil]; rfl⟩
  | cons x l ih =>
    obtain ⟨b₁, rs₁, hstep⟩ := step_of_block hinv.len_bounded x
    have hinv₁ : Block.Inv hw b₁ := step_keeps_inv (s := ⟨b, x :: l, []⟩) hinv (hstep l [])
    obtain ⟨b₂, rs₂, hrun⟩ := ih hinv₁
    refine ⟨b₂, rs₁ ++ rs₂, fun old => ?_⟩
    rw [List.length_cons, run_core_succ _ (hstep l old), hrun, List.append_assoc]

theorem step_of_clr {s : State} {rest : List Input} (hin : s.inputs = .command 0x100 :: rest) :
    step s = .next ⟨Block.initial hw, rest, s.responses ++ [⟨false, 0⟩]⟩ :=
  step_of_decoded hin (decode_encode .clr)

end AnyInputs

/-! # What `FIN` places (R103) -/

section Fin

variable {s : State}

/-- `FIN` in LOAD, offset by offset, with this hardware's header, padding and byte order. -/
theorem exec_fin_places (hp : s.block.phase = .load) (hl : s.block.len.toNat ≤ hw.maxLen) :
    ∃ fb, exec .fin s = .next (succeed 0 { s with block := { s.block with fb := fb, phase := .done } }) ∧
      fb.get headerOffset = 0 ∧
      fb.get (payloadEnd s.block.len) = highByte (~~~s.block.acc) ∧
      fb.get (checksumEnd s.block.len) = lowByte (~~~s.block.acc) ∧
      (∀ i, paddingStart s.block.len ≤ i → i ≤ 63 → fb.get i = 0) ∧
      (∀ i, 1 ≤ i → i ≤ s.block.len.toNat → fb.get i = s.block.fb.get i) ∧
      (∀ i, 63 < i → fb.get i = s.block.fb.get i) := by
  obtain ⟨t, hfin⟩ := exec_fin_completes hl
  rcases execFin_next hfin with ⟨hne, -⟩ | ⟨-, fb, hfb, rfl⟩
  · exact absurd hp hne
  · obtain ⟨-, hpad, hlow, hhigh, hhdr, hkept, habove, -⟩ := placeFrame_ok hfb
    rw [finishChecksum_hw] at hlow hhigh
    rw [hw_width] at hpad habove
    exact ⟨fb, hfin, hhdr, hhigh, hlow, fun i h1 h2 => hpad i h1 (Nat.lt_succ_of_le h2), hkept, habove⟩

/-- The checksum of the empty payload is zero, so its frame cannot be told from a blank one. -/
theorem exec_fin_of_empty (hp : s.block.phase = .load) (hacc : s.block.acc = 0xFFFF) (hlen : s.block.len = 0) :
    ∃ fb, exec .fin s = .next (succeed 0 { s with block := { s.block with fb := fb, phase := .done } }) ∧
      ∀ i < 64, fb.get i = 0 := by
  obtain ⟨fb, hfin, hhdr, hhigh, hlow, hpad, -⟩ := exec_fin_places hp (by simp [hlen])
  rw [hlen] at hhigh hlow hpad
  rw [hacc] at hhigh hlow
  refine ⟨fb, hfin, fun i hi => ?_⟩
  match i, hi with
  | 0, _ => exact hhdr
  | 1, _ => exact hhigh
  | 2, _ => exact hlow
  | i + 3, hi => exact hpad (i + 3) (Nat.le_add_left 3 i) (Nat.le_of_lt_succ hi)

/-- The example of R103: the accumulator after `03 F0 00`. -/
theorem exec_fin_of_example (hp : s.block.phase = .load) (hacc : s.block.acc = 0x76D0) (hlen : s.block.len = 3) :
    ∃ fb, exec .fin s = .next (succeed 0 { s with block := { s.block with fb := fb, phase := .done } }) ∧
      fb.get 4 = 0x89 ∧ fb.get 5 = 0x2F := by
  obtain ⟨fb, hfin, -, hhigh, hlow, -⟩ := exec_fin_places hp (by simp [hlen])
  rw [hacc, hlen] at hhigh hlow
  exact ⟨fb, hfin, hhigh, hlow⟩

/-- In LOAD, and under the invariant, the header and the padding already hold what `FIN` writes there. -/
theorem blank_of_inv_of_load (hinv : s.Inv) (hp : s.block.phase = .load) :
    s.block.fb.get 0 = 0 ∧ ∀ i, 3 + s.block.len.toNat ≤ i → i ≤ 63 → s.block.fb.get i = 0 := by
  refine ⟨hinv.header.trans hw_hdr, fun i h1 h2 => hinv.load_blank hp i (List.mem_range.mpr ?_) (by omega)⟩
  rw [hw_width]
  omega

end Fin

/-! # The frame as a list of bytes (R100 to R102) -/

section FrameShape

variable {p : List Byte} {i : Nat}

/-- The frame with this hardware's header, byte order and padding. -/
theorem frame_hw (p : List Byte) : frame hw p =
    [0x00] ++ p ++ [highByte (checksum hw p), lowByte (checksum hw p)] ++ List.replicate (64 - p.length - 3) 0x00 := by
  rw [frame, hw_width, hw_hdr, hw_pad]
  rfl

theorem frame_hw_getElem? (hi : i < 64) : (frame hw p)[i]? = some
    (if i = 0 then 0x00
     else if i ≤ p.length then p.getD (i - 1) 0
     else if i = p.length + 1 then highByte (checksum hw p)
     else if i = p.length + 2 then lowByte (checksum hw p)
     else 0x00) := by
  split
  · next h0 => rw [h0]; exact frame_getElem?_zero hw p
  split
  · next h0 hpay =>
    have hlt : i - 1 < p.length := by omega
    rw [frame_getElem?_of_le_length (by omega) hpay, List.getD_eq_getElem _ _ hlt, List.getElem?_eq_getElem hlt]
  split
  · next hhigh => rw [hhigh, Nat.add_comm]; exact frame_getElem?_length_add_one hw p
  split
  · next hlow => rw [hlow, Nat.add_comm]; exact frame_getElem?_length_add_two hw p
  · exact frame_getElem?_of_padding (by omega) (hi.trans_eq hw_width.symm)

end FrameShape

/-! # Reading a finished frame (R104, R108) -/

section Reading

variable {b : Block} {p : List Byte} {l : List Instr}

/-- From any block, `CLR`, the loading of a payload that fits, and `FIN`. -/
theorem runs_clr_loading_fin (b : Block) (hl : ∀ i ∈ l, isLoading i = true)
    (hfit : (pushedBytes l).length ≤ hw.maxLen) :
    ∃ b' rs, b.Runs (.clr :: (l ++ [.fin])) b' rs ∧ b'.Holds .done (pushedBytes l) := by
  obtain ⟨b₁, rs, hload, hb₁⟩ := runs_clr_loading b hl hfit
  obtain ⟨b₂, hfin, hb₂⟩ := runs_fin_holds hb₁
  exact ⟨b₂, _, hload.append hfin, hb₂⟩

/-- R30 item 6 for the payload that the block holds. -/
theorem Block.Holds.get_eq (h : b.Holds .done p) {i : Nat} (hi : i < hw.width) :
    some (b.fb.get i) = (frame hw p)[i]? := by
  rw [← h.payload_eq]
  exact h.inv.done_frame h.phase_eq i (List.mem_range.mpr hi)

/-- `RDF` answers the byte that stands at its offset. -/
theorem exec_rdf_of_get {s : State} {off v : Byte} (hp : s.block.phase = .done) (ho : off.toNat < hw.width)
    (hv : s.block.fb.get off.toNat = v) : exec (.rdf off) s = .next (succeed (zext16 v) s) :=
  hv ▸ exec_rdf_of_lt hp ho

theorem exec_rdf_of_holds {s : State} {off : Byte} (h : s.block.Holds .done p) (ho : off.toNat < hw.width) :
    exec (.rdf off) s = .next (succeed (zext16 ((frame hw p).getD off.toNat 0)) s) :=
  exec_rdf_of_get h.phase_eq ho ((get_of_inv_of_done h.inv h.phase_eq ho).trans (by rw [h.payload_eq]))

/-- The host takes the byte out of the answer to `RDF` (R109). -/
theorem map_lowByte_answers (f : List Byte) :
    (f.map fun v => (⟨false, zext16 v⟩ : Response)).map (fun r => lowByte r.rsp) = f := by
  simp [Function.comp_def, lowByte_zext16]

end Reading

/-! # The statements of 41_frame.md -/

/-- Settles O35: after `CLR` both blocks are the initial one, and what follows is a fact of the block. -/
theorem clrForgetsEarlierFrames : Obligations.ClrForgetsEarlierFrames := by
  intro s₁ s₂ l h₁ h₂
  obtain ⟨b, rs, hrun⟩ := run_core_of_block Block.initial_inv l
  have hafter : ∀ s : State, s.inputs = .command 0x100 :: l →
      Host.Core.run core (l.length + 1) s = .next ⟨b, [], s.responses ++ (⟨false, 0⟩ :: rs)⟩ := by
    intro s hin
    rw [run_core_succ _ (step_of_clr hin), hrun, List.append_assoc, List.singleton_append]
  refine ⟨_, _, hafter s₁ h₁, hafter s₂ h₂, rfl, ?_⟩
  rw [newResponses_of_append rfl, newResponses_of_append rfl]

/-- Settles O51: `FIN` turns the loaded payload into its frame; in DONE the invariant says what each offset reads. -/
theorem finishedFrameAgrees : Obligations.FinishedFrameAgrees := by
  intro s l rest hin hl hfit
  obtain ⟨b, rs, hruns, hb⟩ := runs_clr_loading_fin s.block hl (hfit.trans_eq hw_maxLen.symm)
  have hlen : (Instr.clr :: (l ++ [.fin])).length = l.length + 2 := by simp
  have hacc : b.acc = crcAcc hw (pushedBytes l) := by rw [hb.inv.acc_payload, hb.payload_eq]
  refine ⟨_, hlen ▸ hruns.run_core hin, hb.phase_eq, hb.len_eq, hacc, rfl,
    fun i hi => hb.get_eq (hi.trans_eq hw_width.symm), fun off hoff => ?_⟩
  exact exec_rdf_of_holds hb (hoff.trans_eq hw_width.symm)

/-- Settles O54, from the responses of O53: 64 answers to `RDF`, or the OVERFLOW of the 62nd `PUSH` among them. -/
theorem noFaultMeansBuiltFrame : Obligations.NoFaultMeansBuiltFrame := by
  intro s p rest hin
  obtain ⟨-, -, t, hrun, -, hresp⟩ := buildAndDumpResponses s p rest hin
  refine ⟨t, hrun, ?_⟩
  rw [newResponses_of_append hresp]
  split
  · next hfit =>
    have hbuild : build hw p = some (frame hw p) := if_pos (by rw [hw_width]; omega)
    have hok : allSucceeded (List.replicate (p.length + 2) ⟨false, 0⟩ ++
        (frame hw p).map fun v => ⟨false, v.setWidth 16⟩) := by
      simp [allSucceeded, or_imp, forall_and]
    refine ⟨iff_of_true hok hfit, fun _ => ?_⟩
    rw [List.drop_left' List.length_replicate, hbuild]
    exact congrArg some (map_lowByte_answers _).symm
  · next hlong =>
    have hfault : ¬ allSucceeded (List.replicate 62 ⟨false, 0⟩ ++ [⟨true, 1⟩] ++
        List.replicate (p.length - 62 + 1) ⟨true, 3⟩ ++ List.replicate 64 ⟨true, 3⟩) :=
      fun h => absurd (h ⟨true, 1⟩ (by simp)) (by decide)
    exact ⟨iff_of_false hfault hlong, fun h => absurd h hfault⟩

/-- Settles O16. -/
theorem finPlacesFrameOrFaults : Obligations.FinPlacesFrameOrFaults := by
  refine ⟨rfl, fun s hp => exec_fin_of_not_load hp, fun s hp hl => ?_,
    fun w hop hd => decode_of_operand (.inr (.inr (.inl hop))) hd, fun s hp hacc hlen => ?_,
    fun s => blank_of_inv_of_load, fun s hp hacc hlen => ?_⟩
  · obtain ⟨fb, hfin, hhdr, hhigh, hlow, hpad, hkept, habove⟩ := exec_fin_places hp (hl.trans_eq hw_maxLen.symm)
    exact ⟨fb, hfin, hhdr, rfl, hhigh, rfl, hlow, rfl, hpad, rfl, hkept, habove⟩
  · obtain ⟨fb, hfin, hblank⟩ := exec_fin_of_empty hp hacc hlen
    exact ⟨_, hfin, hblank⟩
  · obtain ⟨fb, hfin, hhigh, hlow⟩ := exec_fin_of_example hp hacc hlen
    exact ⟨_, hfin, hhigh, hlow, rfl, rfl⟩

/-- Settles O17: the phase is tested before the offset; the header that `RDF 0` reads is R30 item 3. -/
theorem rdfReadsOrFaults : Obligations.RdfReadsOrFaults := by
  refine ⟨fun off => rfl, fun off s hp => exec_rdf_of_not_done hp,
    fun off s hp ho => exec_rdf_of_ge hp (hw_width.trans_le ho),
    fun off s hp ho => exec_rdf_of_lt hp (ho.trans_eq hw_width.symm),
    fun s hinv hp => exec_rdf_of_get (off := 0) hp (by decide) (hinv.header.trans hw_hdr), fun s hp hacc hlen => ?_⟩
  obtain ⟨fb, hfin, hhigh, hlow⟩ := exec_fin_of_example hp hacc hlen
  refine ⟨_, hfin, ?_, ?_⟩
  · exact exec_rdf_of_get (off := 4) (v := 0x89) rfl (by decide) hhigh
  · exact exec_rdf_of_get (off := 5) (v := 0x2F) rfl (by decide) hlow

/-- Settles O45. -/
theorem frameByteByByte : Obligations.FrameByteByByte :=
  fun p _ => ⟨frame_hw p, fun _ => frame_hw_getElem?⟩

/-- Settles O46. -/
theorem frameShape : Obligations.FrameShape := by
  intro p hp
  have hfits : p.length + 3 ≤ hw.width := by
    rw [hw_width]
    omega
  exact ⟨(frame_length hfits).trans hw_width, frame_getElem?_zero hw p,
    fun i h1 h2 => frame_getElem?_of_padding (by omega) (h2.trans_eq hw_width.symm)⟩

/-- Settles O47. -/
theorem buildFailsWhenTooLong : Obligations.BuildFailsWhenTooLong := by
  refine ⟨fun p hp => if_pos (hp.trans_eq hw_width.symm), fun p hp => if_neg ?_, rfl⟩
  rw [hw_width]
  omega

end Sys2Proof.Machine

/-! # The operations that no phase refuses (R120 to R122)

`NOP`, `CLR` and `RDST` succeed in every state, so each has one equation and no branch. -/

namespace Sys2Proof.Machine

section Control

theorem exec_nop (s : State) : exec .nop s = .next (succeed 0 s) := rfl

theorem exec_clr (s : State) : exec .clr s = .next (succeed 0 { s with block := State.reset.block }) := rfl

theorem exec_rdst (s : State) : exec .rdst s = .next (succeed (statusWord s.block) s) := rfl

/-- STATUS is a view of three elements: their values and the sum of R26 determine the answer. -/
theorem exec_rdst_of_fields {s : State} {len : BitVec 8} {e : ECode} {φ : Phase} {v : Word}
    (hlen : s.block.len = len) (he : s.block.ecode = e) (hp : s.block.phase = φ)
    (hv : len.toNat * 256 + e.code.toNat * 4 + φ.code.toNat = v.toNat) :
    exec .rdst s = .next (succeed v s) := by
  have hstatus : statusWord s.block = v := by
    apply BitVec.eq_of_toNat_eq
    rw [statusWord_toNat, hlen, he, hp, hv]
  rw [exec_rdst, hstatus]

/-- An operand where the operation takes none makes the word reserved, and it raises ILLEGAL in every phase (R64, R133). -/
theorem step_of_operand {s : State} {w : CmdWord} {rest : List Input} (hin : s.inputs = .command w :: rest)
    (hop : opField w = 0 ∨ opField w = 1 ∨ opField w = 3 ∨ opField w = 5 ∨ opField w = 6)
    (hd : dataField w ≠ 0) : step s = .next (raise .illegal { s with inputs := rest }) :=
  step_of_reserved hin (decode_of_operand hop hd)

end Control

/-! # The statements of 42_control.md -/

/-- Settles O19: the answer is STATUS, whose value and fields R26 gives; the other two reads are refused in FAULT by their
phase tests. -/
theorem rdstReadsStatus : Obligations.RdstReadsStatus := by
  refine ⟨rfl, fun s => ⟨_, exec_rdst s, statusWord_toNat _, statusWord_zero _⟩,
    fun w hop hd => decode_of_operand (.inr (.inr (.inr (.inr hop)))) hd, fun off s hp => ?_,
    fun s hp => exec_rdck_of_fault hp, fun s hl he hp => exec_rdst_of_fields hl he hp rfl,
    fun s hl he hp => exec_rdst_of_fields hl he hp rfl, fun s hl he hp => exec_rdst_of_fields hl he hp rfl⟩
  have hne : s.block.phase ≠ .done := by simp [hp]
  exact exec_rdf_of_not_done hne

/-- Settles O13. -/
theorem nopDoesNothing : Obligations.NopDoesNothing :=
  ⟨rfl, exec_nop, fun _ _ _ hin hop hd => step_of_operand hin (.inl hop) hd⟩

/-- Settles O14: the block that `CLR` leaves is the one of O10, and a second `CLR` sets it again. -/
theorem clrStartsFreshFrame : Obligations.ClrStartsFreshFrame := by
  obtain ⟨hacc, hlen, hfb, hphase, -, hecode, -, hstatus, -⟩ := resetValues
  refine ⟨rfl, fun s => ?_, fun _ _ _ hin hop hd => step_of_operand hin (.inr (.inl hop)) hd⟩
  exact ⟨_, exec_clr s, rfl, hacc, hlen, hfb, hphase, hecode, hstatus, rfl, rfl, _, exec_clr _, rfl⟩

end Sys2Proof.Machine

/-! # What taking a fault leaves (R130, R133, R138)

Laws/Ops.lean gives the block after `raise` field by field; here also as one value, then the next state. -/

namespace Sys2Proof.Machine

section Faults

variable {s : State} {w : CmdWord} {rest : List Input} {k : Cause}

/-- Only the first fault since `CLR` or reset records its cause. -/
theorem Block.raise_eq (k : Cause) (b : Block) : b.raise k =
    { acc := b.acc, len := b.len, fb := b.fb, phase := .fault
      ecode := if b.phase = .fault then b.ecode else k.ecode } := by
  by_cases hp : b.phase = .fault
  · rw [Block.raise_of_fault hp, if_pos hp, ← hp]
  · rw [Block.raise_of_not_fault hp, if_neg hp]

theorem raise_of_not_fault (hp : s.block.phase ≠ .fault) : raise k s =
    { s with block := { s.block with ecode := k.ecode, phase := .fault }
             responses := s.responses ++ [⟨true, k.rsp⟩] } := by
  rw [raise, Block.raise_of_not_fault hp]

theorem raise_of_fault (hp : s.block.phase = .fault) :
    raise k s = { s with responses := s.responses ++ [⟨true, k.rsp⟩] } := by
  rw [raise, Block.raise_of_fault hp]

theorem decode_of_unassigned_op (hop : opField w = 7) : decode w = .error .opcode := by
  rw [decode, hop]
  rfl

/-- The two kinds of reserved word of R64, by the fields of the word. -/
theorem decode_of_reserved_fields (hfields : opField w = 7 ∨
    ((opField w = 0 ∨ opField w = 1 ∨ opField w = 3 ∨ opField w = 5 ∨ opField w = 6) ∧ dataField w ≠ 0)) :
    ∃ why, decode w = .error why := by
  rcases hfields with hop | ⟨hop, hd⟩
  · exact ⟨.opcode, decode_of_unassigned_op hop⟩
  · exact ⟨.operand, decode_of_operand hop hd⟩

/-- Where the table of R31 names a cause for the word, the step raises it. -/
theorem step_of_faultOf (hin : s.inputs = .command w :: rest) (hf : faultOf hw s.block (decode w) = some k) :
    step s = .next (raise k { s with inputs := rest }) := by
  cases hd : decode w with
  | error why =>
    rw [hd] at hf
    cases hf
    exact step_of_reserved hin hd
  | ok i =>
    rw [hd] at hf
    rw [step_of_decoded hin hd, exec_of_faultOf (s := { s with inputs := rest }) hf]

/-- In FAULT a further fault takes the command and answers it, and that is all. -/
theorem step_of_faultOf_in_fault (hp : s.block.phase = .fault) (hin : s.inputs = .command w :: rest)
    (hf : faultOf hw s.block (decode w) = some k) :
    step s = .next { s with inputs := rest, responses := s.responses ++ [⟨true, k.rsp⟩] } := by
  rw [step_of_faultOf hin hf, raise_of_fault (s := { s with inputs := rest }) hp]

/-- A command answers `err = 1` only by raising a cause, whose code is the value of the response (R63). -/
theorem step_next_of_err {t : State} {v : Word} (hin : s.inputs = .command w :: rest) (h : step s = .next t)
    (hr : t.responses = s.responses ++ [⟨true, v⟩]) :
    ∃ k, v = k.rsp ∧ t = raise k { s with inputs := rest } := by
  rcases step_next_faultOf hin h with ⟨k, -, rfl⟩ | ⟨i, -, -, hok⟩
  · have hans : s.responses ++ [⟨true, k.rsp⟩] = s.responses ++ [⟨true, v⟩] := hr
    have hv : k.rsp = v := by simpa using hans
    exact ⟨k, hv.symm, rfl⟩
  · rw [succeedsAs_responses hok] at hr
    simp at hr

end Faults

/-! # The statements of 60_exceptions.md -/

/-- Settles O9: both kinds of reserved word decode to none, so the step raises ILLEGAL and reads no phase. -/
theorem reservedWordRaisesIllegal : Obligations.ReservedWordRaisesIllegal := by
  intro s w rest hin hfields
  obtain ⟨why, hd⟩ := decode_of_reserved_fields hfields
  rw [step_of_reserved hin hd, raise, Block.raise_eq]
  rfl

/-- Settles O22: the step raised a cause, and `raise` leaves ACC, LEN and FB. -/
theorem faultsArePrecise : Obligations.FaultsArePrecise := by
  intro s t w rest v hin h hr
  obtain ⟨k, rfl, rfl⟩ := step_next_of_err hin h hr
  refine ⟨Block.raise_acc k _, Block.raise_len k _, Block.raise_fb k _, Block.raise_phase k _, rfl,
    fun hp => Block.raise_of_fault hp, fun hp => ?_⟩
  rw [raise_block, Block.raise_of_not_fault hp]
  rfl

/-- Settles O23: by the table of R31 the column FAULT has a cause for all but `NOP`, `CLR` and `RDST`. -/
theorem faultLeftOnlyByClrOrReset : Obligations.FaultLeftOnlyByClrOrReset := by
  refine ⟨fun s w rest hp hin => ?_, fun s inFlight rest _ hin => step_of_reset hin⟩
  have hfault {k : Cause} (hf : faultOf hw s.block (decode w) = some k) := step_of_faultOf_in_fault hp hin hf
  cases hd : decode w with
  | error why => exact hfault (k := .illegal) (by rw [hd]; rfl)
  | ok i =>
    cases i with
    | nop | clr | rdst => exact step_of_decoded hin hd
    | push v => exact hfault (k := .sequence) (by simp [hd, faultOf_push, hp])
    | fin => exact hfault (k := .sequence) (by simp [hd, faultOf_fin, hp])
    | rdf off => exact hfault (k := .sequence) (by simp [hd, faultOf_rdf, hp])
    | rdck => exact hfault (k := .sequence) (by simp [hd, faultOf_rdck, hp])

/-- Settles O21. -/
theorem raiseRecordsFirstCause : Obligations.RaiseRecordsFirstCause :=
  ⟨fun _ _ hp => raise_of_not_fault hp, fun _ _ hp => raise_of_fault hp, rfl, rfl, rfl, rfl, rfl⟩

end Sys2Proof.Machine

/-! # The statements of 70_reset_and_hazards.md -/

namespace Sys2Proof.Machine

/-- Settles O11: the step of a reset does not read the command in flight, and its block is the one of O10, whose empty
buffer reads 0x00 at every offset. -/
theorem resetFromAnyState : Obligations.ResetFromAnyState := by
  obtain ⟨hacc, hlen, -, hphase, -, hecode, -, hstatus, hfault⟩ := resetValues
  intro s inFlight rest hin
  exact ⟨_, step_of_reset hin, rfl, hacc, hlen, Memory.get_nil, hphase, hecode, hstatus, hfault, rfl, rfl⟩

end Sys2Proof.Machine

/-! # The form of the memory (20_memory.md section 1)

The invariant of R30 includes the form, but is kept only together with its other items. The lemmas here keep the form alone,
so they also hold in blocks that break R30. -/

namespace Sys2Proof.Machine

section MemoryForm

variable {m : Memory} {s t : State}

/-- The memory is in canonical form and lists only offsets below `W`. -/
def Memory.Formed (m : Memory) : Prop := m.wf ∧ m.inside hw

theorem Memory.formed_nil : Memory.Formed [] := ⟨Memory.wf_nil, by simp⟩

theorem Memory.Formed.set {a : Nat} (h : m.Formed) (ha : a < hw.width) (v : Byte) : (m.set a v).Formed :=
  ⟨Memory.wf_set h.1 a v, Memory.inside_set h.2 ha v⟩

theorem Memory.Formed.placeFrame {ck : Word} {len : BitVec 8} {m' : Memory} (h : m.Formed)
    (hm' : placeFrame hw ck len m = .ok m') : m'.Formed := by
  obtain ⟨-, -, -, -, -, -, -, hwf, hin⟩ := placeFrame_ok hm'
  exact ⟨hwf h.1, hin h.2⟩

theorem succeedsAs_formed {i : Instr} (hs : s.block.fb.Formed) (h : succeedsAs i s t) : t.block.fb.Formed := by
  rcases succeedsAs_block h with hb | ⟨-, hb⟩ | ⟨v, -, -, -, hlt, hb⟩ | ⟨-, -, fb, hfb, hb⟩
  · rwa [hb]
  · rw [hb]; exact Memory.formed_nil
  · rw [hb, Block.afterPush_fb]; exact hs.set hlt v
  · rw [hb]; exact hs.placeFrame hfb

theorem step_keeps_formed (hs : s.block.fb.Formed) (h : step s = .next t) : t.block.fb.Formed := by
  rcases step_next_cases h with ⟨-, rfl⟩ | ⟨x, rest, -, rfl⟩ | ⟨w, rest, -, ⟨k, rfl⟩ | ⟨i, -, hok⟩⟩
  · exact hs
  · exact Memory.formed_nil
  · rwa [raise_block, Block.raise_fb]
  · exact succeedsAs_formed (s := { s with inputs := rest }) hs hok

end MemoryForm

/-- Settles O29: a fault and the reads leave the buffer, a reset and `CLR` empty it, and `PUSH` and `FIN` write below `W`. -/
theorem memoryFormKept : Obligations.MemoryFormKept := fun _ _ hwf hin => step_keeps_formed ⟨hwf, hin⟩

/-- Settles O8. -/
theorem idleStepChangesNothing : Obligations.IdleStepChangesNothing := fun _ => step_of_no_input

end Sys2Proof.Machine
